-- ==== Sys2Proof/Word.lean ====
section
/-! DEFINITION. The widths of the block's words: an input byte (R10), a step command word (R50), the magic and
a raw field (R25, R55), and a binary64 pattern (R55, R57). -/

namespace Sys2Proof

/-- A byte is 8 bits, unsigned (R10). -/
abbrev Byte := BitVec 8

/-- A step command word: RST in bit 9, VALID in bit 8, DATA in bits 7 to 0 (R50). -/
abbrev StepWord := BitVec 10

/-- A 32-bit pattern: MAGIC (R25) and a raw field before it is read as signed (R55). -/
abbrev Word32 := BitVec 32

/-- The bit pattern of an IEEE 754 binary64 value (R55, R57). -/
abbrev Binary64 := BitVec 64

end Sys2Proof
end

