-- ==== Sys2Proof/Config.lean ====
section
/-! DEFINITION. The configuration CFG of an instance (R8, R25, R57), the reasons a configuration is refused (R96),
and the configurations the spec names: the one of its worked examples and the profile LEGACY (R91). -/

namespace Sys2Proof

/-- One entry of `field_layout` (R57). The offset and the width are integers, so that the values R96 refuses can
be written down; `scale = none` is an unscaled field (R89); `name` is a label without effect on values (R57). -/
structure LayoutEntry where
  offset : Int
  width  : Int
  scale  : Option Binary64
  name   : String
  deriving DecidableEq, Repr

/-- The default of `header_magic` (R8). -/
def Config.defaultMagic : Word32 := 0xFEFEFEFE#32

/-- The configuration record `CFG` (R57), with the defaults of R8. -/
structure Cfg where
  /-- `CFG.N`, `frame_size`: total bytes per frame with the header (R9). -/
  frameSize : Int
  /-- `CFG.MAGIC`, `header_magic`. -/
  magic     : Word32 := Config.defaultMagic
  /-- `CFG.LAYOUT`, `field_layout`, read only by the decoder (R8). -/
  layout    : List LayoutEntry
  /-- `CFG.STRICT`, the optional mode of R72. -/
  strict    : Bool := false
  deriving DecidableEq, Repr

/-- Why a configuration is refused (R96). `frameSizeAboveMax` is the refusal of D3 and U7 (a size above the
implementation's N_MAX), to which R96 gives no code (notes/assumptions/14.md). -/
inductive ConfigError where
  | frameSizeTooSmall
  | fieldWidthUnsupported
  | fieldOffsetNegative
  | fieldScaleInvalid
  | frameSizeAboveMax
  deriving DecidableEq, Repr

/-- The binary64 pattern of `160.0`, the divisor of the source's worked examples (95_test_vectors.md S1). -/
def Config.scale160 : Binary64 := 0x4064000000000000#64

/-- The configuration of the worked examples S1 to S3 of 95_test_vectors.md. DESIGN CHOICE: State.reset has it,
since the spec gives `N` and `LAYOUT` no default (notes/assumptions/2.md; unsafe for a claim that reads it). -/
def Config.example12 : Cfg :=
  { frameSize := 12, layout := [{ offset := 4, width := 4, scale := some Config.scale160, name := "v" }] }

/-- The profile LEGACY (R91): the divisor S_LEGACY is not in the source, so it is an argument
(notes/assumptions/20.md). -/
def Config.legacy (sLegacy : Binary64) : Cfg :=
  { frameSize := 36
    layout := [{ offset := 16, width := 4, scale := some sLegacy, name := "F16" },
               { offset := 20, width := 4, scale := none, name := "F20" }] }

end Sys2Proof
end

