-- ==== Sys2Proof/Syntax.lean ====
section
/-! DEFINITION. The operations of FSYNC, one constructor per row of spec/opcode_table.json (R62). -/

namespace Sys2Proof

/-- The operation set `FSYNC-v7` (R2, R62). The six `BYTE` operations share one step word and are told apart by
the state (R52); each carries the byte it consumes. -/
inductive Instr where
  /-- RESET (R77). -/
  | reset
  /-- IDLE (R76). -/
  | idle
  /-- SEEK_MATCH (R63). -/
  | seekMatch (b : Byte)
  /-- SEEK_ACCEPT (R64). -/
  | seekAccept (b : Byte)
  /-- SEEK_MISMATCH (R65). -/
  | seekMismatch (b : Byte)
  /-- FILL (R69). -/
  | fill (b : Byte)
  /-- FILL_READY (R70). -/
  | fillReady (b : Byte)
  /-- FILL_REJECT (R71). -/
  | fillReject (b : Byte)
  /-- DECODE (R85): the frame bytes `F` on the decoder port. -/
  | decode (frame : List Byte)
  /-- CHUNK (R61, R78): one call `ingest(state, chunk)`. -/
  | chunk (bytes : List Byte)
  deriving DecidableEq, Repr

end Sys2Proof
end

