-- ==== Sys2Proof/WellFormed.lean ====
section
/-! DEFINITION. The phase register in its tagged form (R19), the part of the state that selects a `BYTE`
operation, and the check that an operation's state condition holds (R52; the column `state_condition` of
spec/opcode_table.json). -/

namespace Sys2Proof

/-- `PHASE`, as the tagged value of R19: `Seeking(m)` is `PHASE = -m`, `Filling(r)` is `PHASE = r`. -/
inductive Phase where
  | seeking (matched : Fin 4)
  | filling (remaining : Nat)
  deriving DecidableEq, Repr

/-- The values of `PHASE` at a step boundary for frames of `n` bytes (R18, R19). -/
def Phase.legal (n : Nat) : Phase → Bool
  | .seeking _ => true
  | .filling r => decide (1 ≤ r) && decide (r ≤ n)

/-- What the selection of a `BYTE` operation reads of the state (R52). -/
structure SelectView where
  phase    : Phase
  /-- `HDR[m]` with `m = -PHASE` while seeking; not read while filling. -/
  expected : Byte
  /-- `LE(BUF, 0, 4) = MAGIC`. -/
  headerOk : Bool
  deriving DecidableEq, Repr

/-- The state condition of an operation (R52). An operation is well formed in a state when its condition holds
there; the four operations that are not `BYTE` operations have none. -/
def Instr.selectedIn (v : SelectView) : Instr → Bool
  | .reset => true
  | .idle => true
  | .seekMatch b =>
    match v.phase with
    | .seeking m => decide (m.val < 3) && decide (b = v.expected)
    | .filling _ => false
  | .seekAccept b =>
    match v.phase with
    | .seeking m => decide (m.val = 3) && decide (b = v.expected)
    | .filling _ => false
  | .seekMismatch b =>
    match v.phase with
    | .seeking _ => decide (b ≠ v.expected)
    | .filling _ => false
  | .fill _ =>
    match v.phase with
    | .seeking _ => false
    | .filling r => decide (2 ≤ r)
  | .fillReady _ =>
    match v.phase with
    | .seeking _ => false
    | .filling r => decide (r = 1) && v.headerOk
  | .fillReject _ =>
    match v.phase with
    | .seeking _ => false
    | .filling r => decide (r = 1) && !v.headerOk
  | .decode _ => true
  | .chunk _ => true

end Sys2Proof
end

