-- ==== Sys2Proof/Decode.lean ====
section
/-! DEFINITION. Decoding of what the ports present, total and rejecting by name (R51, R52, R55, R61), and the
encoder (R55, R60, R61). -/

namespace Sys2Proof

/-- `HDR[i] = MAGIC[8i+7 : 8i]` (R26). -/
def hdr (magic : Word32) (i : Nat) : Byte := magic.extractLsb' (8 * i) 8

/-! ### The step command word -/

/-- What a step word asks for, before the state is looked at (R51). -/
inductive StepCommand where
  | reset
  | idle
  | byte (b : Byte)
  deriving DecidableEq, Repr

/-- R51, in its priority order: RST, then VALID. Every one of the 1024 words decodes (R58). -/
def decodeStepWord (w : StepWord) : StepCommand :=
  if w.getLsbD 9 then .reset
  else if w.getLsbD 8 then .byte (w.extractLsb' 0 8)
  else .idle

/-- The canonical word of `BYTE b`, `0x100 | b` (R60). -/
def byteWord (b : Byte) : StepWord := 0x100#10 ||| b.setWidth 10

/-- The canonical word of `RST` (R60). -/
def resetWord : StepWord := 0x200#10

/-- The canonical word of `IDLE` (R60). -/
def idleWord : StepWord := 0x000#10

/-! ### Selection of the `BYTE` operation -/

/-- The six `BYTE` operations (R52). -/
inductive ByteOp where
  | seekMatch
  | seekAccept
  | seekMismatch
  | fill
  | fillReady
  | fillReject
  deriving DecidableEq, Repr

/-- The operation with the byte it consumes. -/
def ByteOp.instr (b : Byte) : ByteOp → Instr
  | .seekMatch => .seekMatch b
  | .seekAccept => .seekAccept b
  | .seekMismatch => .seekMismatch b
  | .fill => .fill b
  | .fillReady => .fillReady b
  | .fillReject => .fillReject b

/-- R52. `none` only for `Filling(0)`, which R19 does not have. -/
def selectByte (v : SelectView) (b : Byte) : Option ByteOp :=
  match v.phase with
  | .seeking m =>
    if b = v.expected then
      if m.val = 3 then some .seekAccept else some .seekMatch
    else some .seekMismatch
  | .filling r =>
    if r = 0 then none
    else if r = 1 then
      if v.headerOk then some .fillReady else some .fillReject
    else some .fill

/-! ### The decoder port -/

/-- Frame bytes on a port of `8L` bits, byte `j` in bits `[8j+7 : 8j]` (R53, R55). -/
def packFrame : List Byte → Nat
  | [] => 0
  | b :: bs => b.toNat + 256 * packFrame bs

/-- The `len` bytes of a port value, byte `j` from bits `[8j+7 : 8j]` (R55). -/
def unpackFrame : Nat → Nat → List Byte
  | 0, _ => []
  | len + 1, bits => BitVec.ofNat 8 bits :: unpackFrame len (bits / 256)

/-! ### What the ports present in one step of the model -/

/-- One step's input: a step word on the step port (R50), one `ingest` call, which is one `CHUNK` line (R61, R78),
or frame bytes on the decoder port, whose `8 * len` wires carry `bits` (R55). -/
inductive PortInput where
  | stepWord (w : StepWord)
  | ingest (bytes : List Byte)
  | decFrame (len bits : Nat)
  deriving DecidableEq, Repr

/-- Why an input is not an operation. No step word is illegal (R58). -/
inductive DecodeReject where
  /-- A `BYTE` word when `PHASE` has no legal value (R18): no row of R52 applies. -/
  | illegalPhase
  /-- A number that does not fit in the ten bits of a step word (R59). -/
  | widerThanStepWord
  deriving DecidableEq, Repr

/-- The operation an input selects in a state seen as `v` (R51, R52, R62). -/
def decode (v : SelectView) : PortInput → Except DecodeReject Instr
  | .stepWord w =>
    match decodeStepWord w with
    | .reset => .ok .reset
    | .idle => .ok .idle
    | .byte b =>
      match selectByte v b with
      | some op => .ok (op.instr b)
      | none => .error .illegalPhase
  | .ingest bytes => .ok (.chunk bytes)
  | .decFrame len bits => .ok (.decode (unpackFrame len bits))

/-! ### The encoder -/

/-- The input that asks for an operation, with the canonical words of R60. -/
def encode : Instr → PortInput
  | .reset => .stepWord resetWord
  | .idle => .stepWord idleWord
  | .seekMatch b => .stepWord (byteWord b)
  | .seekAccept b => .stepWord (byteWord b)
  | .seekMismatch b => .stepWord (byteWord b)
  | .fill b => .stepWord (byteWord b)
  | .fillReady b => .stepWord (byteWord b)
  | .fillReject b => .stepWord (byteWord b)
  | .decode frame => .decFrame frame.length (packFrame frame)
  | .chunk bytes => .ingest bytes

/-- The step words of an operation, in order: one, or one `BYTE` word per byte of a chunk (R61), or none for
`DECODE`, which has a port of its own (R55). -/
def Instr.stepWords : Instr → List StepWord
  | .reset => [resetWord]
  | .idle => [idleWord]
  | .seekMatch b => [byteWord b]
  | .seekAccept b => [byteWord b]
  | .seekMismatch b => [byteWord b]
  | .fill b => [byteWord b]
  | .fillReady b => [byteWord b]
  | .fillReject b => [byteWord b]
  | .decode _ => []
  | .chunk bytes => bytes.map byteWord

/-! ### Words as the opcode table numbers them -/

/-- The selection view of a newly reset instance with the default magic: `Seeking(0)`, `HDR[0]` expected (R29). -/
def resetView : SelectView :=
  { phase := .seeking 0, expected := hdr Config.defaultMagic 0, headerOk := false }

/-- A number as a step word, in the state seen as `v`; a number of more than ten bits is no step word (R59). -/
def decodeNumber (v : SelectView) (w : Nat) : Except DecodeReject Instr :=
  if w < 2 ^ 10 then decode v (.stepWord (BitVec.ofNat 10 w)) else .error .widerThanStepWord

/-- The host's question: the operation of the word `w`. A `01dddddddd` word is one of six operations according to
the state (R52), so it is decoded in the state after reset (notes/assumptions/5.md). -/
def decodeTableWord (nbits w : Nat) : Option Instr :=
  match nbits, decodeNumber resetView w with
  | _, .ok i => some i
  | _, .error _ => none

end Sys2Proof
end

