-- ==== Sys2Proof/Machine/State.lean ====
section
/-! DEFINITION. The state of one instance as plain data (R15, R25, R29), its outputs (R27, R53 to R55), the ways a
step can stop, and the state after reset. -/

namespace Sys2Proof.Machine

/-- The one reason of a rejection (R53). The codes 1 to 3 are reserved and never produced (R58), so they have no
constructor. -/
inductive RejectReason where
  | badHeader
  deriving DecidableEq, Repr

/-- An event (R3, R53). `frameReady` carries the frame's bytes, a copy and never a reference (R27, R116). -/
inductive Event where
  | frameReady (bytes : List Byte)
  | frameRejected (reason : RejectReason)
  deriving DecidableEq, Repr

/-- A diagnostic (R54): `headerMismatch m`, with the `m` matched bytes that were discarded. -/
inductive Diag where
  | headerMismatch (m : Fin 4)
  deriving DecidableEq, Repr

/-- One decoded field `(name, raw, val)` (R85); `val = none` where the entry has no scale. -/
structure FieldValue where
  name : String
  raw  : Int
  val  : Option Binary64
  deriving DecidableEq, Repr

/-- The decoder's result: the fields in layout order, or `DecodeError(k)` (R85, R88). -/
inductive DecodeResult where
  | ok (fields : List FieldValue)
  | decodeError (k : Nat)
  deriving DecidableEq, Repr

/-- What the last step put on the output ports. A step word gives at most one event or one diagnostic (R99); a
`CHUNK` gives those of its `BYTE` steps in order (R78). DESIGN CHOICE: outputs are no state of the block (R27);
the model keeps the last step's so that claims can speak of them (notes/assumptions/4.md; safe). -/
structure Outputs where
  events  : List Event
  diags   : List Diag
  decoded : Option DecodeResult
  deriving DecidableEq, Repr

/-- Nothing on the output ports (R27). -/
def Outputs.none : Outputs := { events := [], diags := [], decoded := Option.none }

/-- The storage of `BUF` (R31): cells with rising addresses and no cell that holds the `0x00` an unlisted index
reads as (R29). DESIGN CHOICE (notes/assumptions/8.md; safe). -/
abbrev Memory := List Host.Cell

/-- The state of one instance. -/
structure State where
  /-- `CFG`, fixed for the life of the instance (R25, R113); no operation writes it (notes/assumptions/1.md). -/
  cfg   : Cfg
  /-- `PHASE` (R17, R19). -/
  phase : Phase
  /-- `BUF[0..N-1]` (R21). -/
  buf   : Memory
  /-- `POS`, the model-only count of `BYTE` steps since reset (R24; notes/assumptions/15.md). -/
  pos   : Nat
  /-- The outputs of the last step (R27; notes/assumptions/4.md). -/
  out   : Outputs
  /-- The model's own field: what the ports will present in the coming steps, first one first (R50, R105).
  DESIGN CHOICE (notes/assumptions/3.md; safe). -/
  input : List PortInput
  deriving DecidableEq, Repr

/-- The machine's faults. FSYNC has no fatal condition (R97): both are raised only in states that no run reaches. -/
inductive Fault where
  /-- A `BUF` write at an index outside `0..N-1`. Raised by `storeByte` when `PHASE` is above `N` (R41 rules it out
  in every legal state). Safe: the model stops. -/
  | bufIndex
  /-- An input that is no operation: a `BYTE` word in `Filling(0)`, a value that R18 and R19 exclude. Raised by `step`
  and by `byteStep`. Safe: the model stops. -/
  | inputRejected (why : DecodeReject)
  deriving DecidableEq, Repr

/-- Why an operation has no meaning in a state. -/
inductive Refusal where
  /-- The operation has no meaning yet. Raised by no arm of this model. Safe. -/
  | notModelled (mnemonic : String)
  /-- A `BYTE` operation whose state condition (R52) does not hold. Raised by the six `BYTE` meanings when they are
  called outside a step; `step` never selects such an operation. Safe: the model stops (notes/assumptions/6.md). -/
  | notSelected
  /-- The configuration is refused, so no instance exists and there is no behaviour (R96). Raised by every meaning.
  Safe: the model stops (notes/assumptions/7.md). -/
  | configRefused (reason : ConfigError)
  deriving DecidableEq, Repr

/-- The outcome of a step of this machine. -/
abbrev StepResult := Host.Outcome State Fault Refusal

/-- A newly created instance with configuration `c` (R29, R108): `Seeking(0)`, `BUF` all zero, `POS = 0`, nothing on
the ports. -/
def State.initial (c : Cfg) : State :=
  { cfg := c, phase := .seeking 0, buf := [], pos := 0, out := Outputs.none, input := [] }

/-- The machine right after reset (R29), with the configuration of notes/assumptions/2.md. -/
def State.reset : State := State.initial Config.example12

end Sys2Proof.Machine
end

