-- ==== Sys2Proof/Machine/Admission.lean ====
section
/-! DEFINITION. The admission check of a configuration (R86, R96), its codes, and the creation of an instance
(R109, R111). -/

namespace Sys2Proof

/-- A binary64 pattern is finite: its exponent field is not all ones (GK1 of 93_implementation_defined.md). -/
def binary64Finite (x : Binary64) : Bool := x.extractLsb' 52 11 != 0x7FF#11

/-- A binary64 pattern is `+0.0` or `-0.0`. -/
def binary64Zero (x : Binary64) : Bool := x.extractLsb' 0 63 == 0#63

/-- A scale is admitted when it is absent, or finite and not zero (R86). -/
def scaleAdmitted (scale : Option Binary64) : Bool :=
  match scale with
  | none => true
  | some x => binary64Finite x && !binary64Zero x

/-- The table of R96, lowest code first: the reason a configuration is refused, or `none`. -/
def Cfg.configError (c : Cfg) : Option ConfigError :=
  if c.frameSize ≤ 4 then some .frameSizeTooSmall
  else if c.layout.any (fun f => decide (f.width ≠ 4)) then some .fieldWidthUnsupported
  else if c.layout.any (fun f => decide (f.offset < 0)) then some .fieldOffsetNegative
  else if c.layout.any (fun f => !scaleAdmitted f.scale) then some .fieldScaleInvalid
  else none

/-- A configuration an instance can have (R96): the decidable admission predicate. -/
abbrev Cfg.Admitted (c : Cfg) : Prop := c.configError = none

/-- The numeric codes of R96. `frameSizeAboveMax` has none in the spec (notes/assumptions/14.md). -/
def ConfigError.code : ConfigError → Option Nat
  | .frameSizeTooSmall => some 1
  | .fieldWidthUnsupported => some 2
  | .fieldOffsetNegative => some 3
  | .fieldScaleInvalid => some 4
  | .frameSizeAboveMax => none

/-- `CFG.N` as a count of bytes. -/
def Cfg.n (c : Cfg) : Nat := c.frameSize.toNat

end Sys2Proof

namespace Sys2Proof.Machine

/-- `N` of the instance. -/
def State.n (s : State) : Nat := s.cfg.n

/-- Creation of an instance (R109, R111) by an implementation with frame size bound `nMax` (R25, D3): the admission
check first, then the bound, then the reset state. -/
def State.create (nMax : Nat) (c : Cfg) : Except ConfigError State :=
  match c.configError with
  | some e => .error e
  | none => if c.n ≤ nMax then .ok (State.initial c) else .error .frameSizeAboveMax

end Sys2Proof.Machine
end

