-- ==== Sys2Proof/Machine/Binary64.lean ====
section
/-! DEFINITION. `div64`: a 32-bit integer divided by a binary64 scale, rounded to nearest, ties to even (R89, D15).
The format and the rounding are the spec's own from general knowledge (GK1); overflow to infinity and gradual
underflow are the format's (notes/assumptions/12.md). Everything is exact arithmetic on `Nat`, rounded once. -/

namespace Sys2Proof.Machine

/-- The fraction field of a binary64 pattern. -/
def binary64Fraction (x : Binary64) : Nat := (x.extractLsb' 0 52).toNat

/-- The exponent field of a binary64 pattern. -/
def binary64Exponent (x : Binary64) : Nat := (x.extractLsb' 52 11).toNat

/-- The sign bit of a binary64 pattern. -/
def binary64Sign (x : Binary64) : Bool := x.getLsbD 63

/-- The integer significand of a finite pattern: its magnitude is `significand * 2^scaleExp / 2^1074`. -/
def binary64Significand (x : Binary64) : Nat :=
  if binary64Exponent x = 0 then binary64Fraction x else 2 ^ 52 + binary64Fraction x

/-- The exponent of the last place of a finite pattern, counted from `-1074`. -/
def binary64ScaleExp (x : Binary64) : Nat := binary64Exponent x - 1

/-- `num / den` rounded to an integer, ties to even. -/
def roundHalfEven (num den : Nat) : Nat :=
  let q := num / den
  let r := num % den
  if 2 * r < den then q
  else if den < 2 * r then q + 1
  else if q % 2 = 0 then q else q + 1

/-- `floor(log2(num / den))` for positive `num` and `den`. -/
def floorLog2Ratio (num den : Nat) : Int :=
  let k : Int := (num.log2 : Int) - (den.log2 : Int)
  let fits : Bool := if 0 ≤ k then decide (den * 2 ^ k.toNat ≤ num) else decide (den ≤ num * 2 ^ (-k).toNat)
  if fits then k else k - 1

/-- The magnitude bits of `+infinity`. -/
def binary64Inf : Nat := 0x7FF0000000000000

/-- The binary64 magnitude nearest to `num / den`, ties to even: the last place `u` is 52 below the leading bit, and
never below `-1074`; the carry of a rounding up moves into the exponent field by addition. -/
def roundRatio (num den : Nat) : Nat :=
  if num = 0 then 0
  else
    let u : Int := max (floorLog2Ratio num den - 52) (-1074)
    let sig := if 0 ≤ u then roundHalfEven num (den * 2 ^ u.toNat) else roundHalfEven (num * 2 ^ (-u).toNat) den
    min ((u + 1074).toNat * 2 ^ 52 + sig) binary64Inf

/-- The magnitude of `raw / s`: the scale is `significand * 2^(scaleExp - 1074)`, and its power of two stands in the
numerator or in the denominator. -/
def divMagnitude (raw : Nat) (s : Binary64) : Nat :=
  let e := binary64ScaleExp s
  if e ≤ 1074 then roundRatio (raw * 2 ^ (1074 - e)) (binary64Significand s)
  else roundRatio raw (binary64Significand s * 2 ^ (e - 1074))

/-- `div64(raw, s)` (R89) for an admitted scale: the sign is the product of the signs, so `0 / s` is `-0.0` for
`s < 0`. A zero, infinite or NaN scale is refused (R96), so no operation applies it to one, and what it answers there stands
for nothing (notes/assumptions/12.md). -/
def div64 (raw : Int) (s : Binary64) : Binary64 :=
  let negative := (decide (raw < 0)).xor (binary64Sign s)
  BitVec.ofNat 64 ((if negative then 2 ^ 63 else 0) + divMagnitude raw.natAbs s)

end Sys2Proof.Machine
end

