-- ==== Sys2Proof/Machine/Ops.lean ====
section
/-! DEFINITION. The named operations over `BUF`, `PHASE`, the outputs and the input (R16, R31, R41), and the one
recovery operation, which stands where another machine takes an exception (R100). -/

namespace Sys2Proof.Machine

/-! ### The storage of `BUF` -/

/-- What an index that no cell lists reads as: the reset contents of `BUF` (R29). -/
def unlisted : Byte := 0x00#8

/-- `BUF[i]` (R12). -/
def Memory.read (m : Memory) (i : Nat) : Byte :=
  match m with
  | [] => unlisted
  | (a, v) :: rest => if i = a then v else Memory.read rest i

/-- Put a cell in front unless it holds what an unlisted index reads as. -/
def Memory.cons (i : Nat) (v : Byte) (m : Memory) : Memory :=
  if v = unlisted then m else (i, v) :: m

/-- `BUF[i] <- v` (R12), keeping the canonical form. -/
def Memory.write (m : Memory) (i : Nat) (v : Byte) : Memory :=
  match m with
  | [] => Memory.cons i v []
  | (a, w) :: rest =>
    if i < a then Memory.cons i v ((a, w) :: rest)
    else if i = a then Memory.cons i v rest
    else (a, w) :: Memory.write rest i v

/-- Every cell of `m` lies in `lo .. hi-1`, addresses rise, and no cell holds `0x00`. -/
def Memory.wfFrom (lo hi : Nat) : Memory → Bool
  | [] => true
  | (a, v) :: rest =>
    decide (lo ≤ a) && decide (a < hi) && decide (v ≠ unlisted) && Memory.wfFrom (a + 1) hi rest

/-- The canonical form of a `BUF` of `n` bytes. -/
def Memory.wf (n : Nat) (m : Memory) : Bool := Memory.wfFrom 0 n m

/-- `BUF[0..n-1]` in index order, by value: the copy a `FrameReady` carries (R27, R34). -/
def Memory.snapshot (n : Nat) (m : Memory) : List Byte := (List.range n).map (Memory.read m)

/-! ### Reading multi-byte values -/

/-- `LE(F, a, n)`, the sum over `k < n` of `F[a+k] * 2^(8k)` (R35), of a byte array given by its read function. -/
def le (read : Nat → Byte) (a : Nat) : Nat → Nat
  | 0 => 0
  | n + 1 => le read a n + (read (a + n)).toNat * 2 ^ (8 * n)

/-- The header value `LE(BUF, 0, 4)` as a 32-bit pattern (R56). -/
def headerValue (m : Memory) : Word32 := BitVec.ofNat 32 (le (Memory.read m) 0 4)

/-! ### Outcomes -/

/-- Go on from a next state; a fault or a refusal stays. -/
def andThen (o : StepResult) (f : State → StepResult) : StepResult :=
  match o with
  | .next s => f s
  | .fault r => .fault r
  | .refused r => .refused r

/-! ### Registers and outputs -/

/-- `PHASE <- p`. -/
def State.setPhase (s : State) (p : Phase) : State := { s with phase := p }

/-- Nothing on the output ports: what a step starts from (R27). -/
def State.clearOut (s : State) : State := { s with out := Outputs.none }

/-- `emit e` (R12). -/
def State.emit (s : State) (e : Event) : State := { s with out := { s.out with events := s.out.events ++ [e] } }

/-- `diag d` (R12). -/
def State.diag (s : State) (d : Diag) : State := { s with out := { s.out with diags := s.out.diags ++ [d] } }

/-- A byte has been consumed: `POS` counts it (R24). -/
def State.countByte (s : State) : State := { s with pos := s.pos + 1 }

/-- The recovery of R100, shared by `SEEK_MISMATCH` and `FILL_REJECT`: `Seeking(0)`, nothing saved, `BUF` left as it is
(D5). FSYNC has no trap entry and no return from one (R100, R101). -/
def State.resync (s : State) : State := s.setPhase (.seeking 0)

/-- The outputs of two stretches of one chunk, joined in step order (R78). -/
def Outputs.append (a b : Outputs) : Outputs :=
  { events := a.events ++ b.events, diags := a.diags ++ b.diags, decoded := b.decoded }

/-- The outputs of an earlier stretch put before those of `s`. -/
def State.prependOut (o : Outputs) (s : State) : State := { s with out := o.append s.out }

/-! ### The write pointer -/

/-- The index the block writes next (R41): `m` while seeking, `N - PHASE` while filling; `none` when `PHASE > N`,
which R18 excludes. -/
def State.writeIndex (s : State) : Option Nat :=
  match s.phase with
  | .seeking m => some m.val
  | .filling r => if r ≤ s.n then some (s.n - r) else none

/-- Store the input byte at the write pointer (R41). An index that does not exist faults. -/
def storeByte (b : Byte) (s : State) : StepResult :=
  match s.writeIndex with
  | some i => if i < s.n then .next { s with buf := s.buf.write i b } else .fault .bufIndex
  | none => .fault .bufIndex

/-! ### Instances and inputs -/

/-- A refused configuration has no behaviour (R96). -/
def onInstance (s : State) (k : StepResult) : StepResult :=
  match s.cfg.configError with
  | some e => .refused (.configRefused e)
  | none => k

/-- The first input is consumed by this step. -/
def State.popInput (s : State) : State := { s with input := s.input.tail }

/-- The word `w` becomes the next word of the step port; a number of more than ten bits is no step word, and
nothing is presented for it (R59; notes/assumptions/5.md). -/
def State.presentWord (s : State) (w : Nat) : State :=
  if w < 2 ^ 10 then { s with input := .stepWord (BitVec.ofNat 10 w) :: s.input } else s

end Sys2Proof.Machine
end

