-- ==== Sys2Proof/Machine/Operands.lean ====
section
/-! DEFINITION. How operands are formed (R56): the selection view of a state, a frame's bytes and its signed
fields. -/

namespace Sys2Proof.Machine

/-- `F[i]` of a frame handed to the decoder. Every read of `DECODE` lies inside the frame, since all entries are
checked first (R85). -/
def frameByte (frame : List Byte) (i : Nat) : Byte := frame.getD i 0

/-- `s32(v)`: a 32-bit pattern read as two's complement (R12, R87; notes/assumptions/13.md). -/
def s32 (v : Word32) : Int := v.toInt

/-- The raw value of the field at `offset`: `s32(LE(F, offset, 4))` (R87). -/
def rawField (frame : List Byte) (offset : Nat) : Int := s32 (BitVec.ofNat 32 (le (frameByte frame) offset 4))

/-- The header byte the seeker waits for: `HDR[m]` with `m = -PHASE` (R52). While filling none is compared. -/
def expectedByte (s : State) : Byte :=
  match s.phase with
  | .seeking m => hdr s.cfg.magic m.val
  | .filling _ => hdr s.cfg.magic 0

/-- What the selection of a `BYTE` operation reads of the state (R52, with the derived form `LE(BUF, 0, 4)`). -/
def State.view (s : State) : SelectView :=
  { phase := s.phase, expected := expectedByte s, headerOk := decide (headerValue s.buf = s.cfg.magic) }

/-- The common part of the six `BYTE` operations: the instance exists (R96), the operation's state condition holds
(R52), the outputs start empty (R27), and the byte is counted (R24). -/
def runByteOp (i : Instr) (s : State) (body : State → StepResult) : StepResult :=
  onInstance s (if i.selectedIn s.view then body s.clearOut.countByte else .refused .notSelected)

end Sys2Proof.Machine
end

