-- ==== Sys2Proof/Machine/Decoder.lean ====
section
/-! DEFINITION. The frame decoder (43_decode.md): a pure function of the frame and the layout (R90). -/

namespace Sys2Proof.Machine

/-- An entry does not fit in a frame of `len` bytes: `offset + width > L` (R88). -/
def misfits (len : Nat) (f : LayoutEntry) : Bool := decide (f.offset + f.width > (len : Int))

/-- The decoded field of an entry (R85, R87, R89). -/
def fieldValue (frame : List Byte) (f : LayoutEntry) : FieldValue :=
  let raw := rawField frame f.offset.toNat
  { name := f.name, raw := raw, val := f.scale.map (div64 raw) }

/-- The decoder (R85): every entry is checked before any field is produced; the lowest entry that does not fit is
reported (R88). -/
def decodeFrame (layout : List LayoutEntry) (frame : List Byte) : DecodeResult :=
  match layout.findIdx? (misfits frame.length) with
  | some k => .decodeError k
  | none => .ok (layout.map (fieldValue frame))

/-- DECODE (R85, R90): the result appears on the decoder port; `PHASE`, `BUF` and `POS` are neither read nor written. A
`DecodeError` is a result of the decoder and no stop of the machine (R95). -/
def execDecode (frame : List Byte) (s : State) : StepResult :=
  onInstance s (.next { s with out := { Outputs.none with decoded := some (decodeFrame s.cfg.layout frame) } })

end Sys2Proof.Machine
end

