-- ==== Sys2Proof/Machine/Fill.lean ====
section
/-! DEFINITION. The filling family: the reassembler and its strict variant (41_fill.md). -/

namespace Sys2Proof.Machine

/-- FILL (R69): `BUF[N - PHASE] <- b; PHASE <- PHASE - 1`. -/
def execFill (b : Byte) (s : State) : StepResult :=
  runByteOp (.fill b) s fun s =>
    andThen (storeByte b s) fun s =>
      match s.phase with
      | .filling r => .next (s.setPhase (.filling (r - 1)))
      | .seeking _ => .refused .notSelected

/-- `PHASE` after a valid frame: re-armed (R70), or `Seeking(0)` in strict mode (R72). -/
def rearmPhase (c : Cfg) : Phase := if c.strict then .seeking 0 else .filling c.n

/-- FILL_READY (R70, R72): `BUF[N-1] <- b; emit FrameReady(BUF[0..N-1])`, then re-arm. -/
def execFillReady (b : Byte) (s : State) : StepResult :=
  runByteOp (.fillReady b) s fun s =>
    andThen (storeByte b s) fun s =>
      .next ((s.emit (.frameReady (s.buf.snapshot s.n))).setPhase (rearmPhase s.cfg))

/-- FILL_REJECT (R71): `BUF[N-1] <- b; PHASE <- 0; emit FrameRejected(BAD_HEADER)`. -/
def execFillReject (b : Byte) (s : State) : StepResult :=
  runByteOp (.fillReject b) s fun s =>
    andThen (storeByte b s) fun s => .next (s.resync.emit (.frameRejected .badHeader))

end Sys2Proof.Machine
end

