-- ==== Sys2Proof/Machine/Seek.lean ====
section
/-! DEFINITION. The seeking family: the magic-byte matcher (40_seek.md). -/

namespace Sys2Proof.Machine

/-- SEEK_MATCH (R63): `BUF[m] <- b; PHASE <- PHASE - 1`. -/
def execSeekMatch (b : Byte) (s : State) : StepResult :=
  runByteOp (.seekMatch b) s fun s =>
    andThen (storeByte b s) fun s =>
      match s.phase with
      | .seeking m => .next (s.setPhase (.seeking (m + 1)))
      | .filling _ => .refused .notSelected

/-- SEEK_ACCEPT (R64): `BUF[3] <- b; PHASE <- N - 4`. The transient `-4` is never visible (R18). -/
def execSeekAccept (b : Byte) (s : State) : StepResult :=
  runByteOp (.seekAccept b) s fun s =>
    andThen (storeByte b s) fun s => .next (s.setPhase (.filling (s.n - 4)))

/-- SEEK_MISMATCH (R65): `PHASE <- 0; diag HeaderMismatch(m)`. The byte is dropped, not retried (R66). -/
def execSeekMismatch (b : Byte) (s : State) : StepResult :=
  runByteOp (.seekMismatch b) s fun s =>
    match s.phase with
    | .seeking m => .next (s.resync.diag (.headerMismatch m))
    | .filling _ => .refused .notSelected

end Sys2Proof.Machine
end

