-- ==== Sys2Proof/Machine/Stream.lean ====
section
/-! DEFINITION. Stream control and the chunk contract (42_stream.md). -/

namespace Sys2Proof.Machine

/-- IDLE (R76): nothing changes and nothing is on the output ports. -/
def execIdle (s : State) : StepResult := onInstance s (.next s.clearOut)

/-- RESET (R77): the state of a newly created instance with the same `CFG`; no event for a partial frame. What the
ports will present next is not the block's and stays. -/
def execReset (s : State) : StepResult :=
  onInstance s (.next { State.initial s.cfg with input := s.input })

/-- The meaning of a `BYTE` operation. -/
def runSelected (op : ByteOp) (b : Byte) (s : State) : StepResult :=
  match op with
  | .seekMatch => execSeekMatch b s
  | .seekAccept => execSeekAccept b s
  | .seekMismatch => execSeekMismatch b s
  | .fill => execFill b s
  | .fillReady => execFillReady b s
  | .fillReject => execFillReject b s

/-- One `BYTE` step (R51 item 3): select by R52, then run. -/
def byteStep (b : Byte) (s : State) : StepResult :=
  match selectByte s.view b with
  | some op => runSelected op b s
  | none => .fault (.inputRejected .illegalPhase)

/-- `ingest(state, chunk)` (R78): the `BYTE` steps in order, their outputs joined in step order. -/
def ingest : List Byte → State → StepResult
  | [], s => .next s.clearOut
  | b :: rest, s =>
    andThen (byteStep b s) fun s1 =>
      andThen (ingest rest s1) fun s2 => .next (s2.prependOut s1.out)

/-- CHUNK (R61, R78): one `ingest` call. -/
def execChunk (bytes : List Byte) (s : State) : StepResult := onInstance s (ingest bytes s)

end Sys2Proof.Machine
end

