-- ==== Sys2Proof/Machine/Dispatch.lean ====
section
/-! DEFINITION. The meaning of every operation: one arm per constructor of Instr. -/

namespace Sys2Proof.Machine

def exec (i : Instr) (s : State) : Host.Outcome State Fault Refusal :=
  match i with
  | .reset => Sys2Proof.Machine.execReset s
  | .idle => Sys2Proof.Machine.execIdle s
  | .seekMatch b => Sys2Proof.Machine.execSeekMatch b s
  | .seekAccept b => Sys2Proof.Machine.execSeekAccept b s
  | .seekMismatch b => Sys2Proof.Machine.execSeekMismatch b s
  | .fill b => Sys2Proof.Machine.execFill b s
  | .fillReady b => Sys2Proof.Machine.execFillReady b s
  | .fillReject b => Sys2Proof.Machine.execFillReject b s
  | .decode frame => Sys2Proof.Machine.execDecode frame s
  | .chunk bytes => Sys2Proof.Machine.execChunk bytes s

end Sys2Proof.Machine
end

