-- ==== Sys2Proof/Machine/Fetch.lean ====
section
/-! DEFINITION. What a step is asked to do. FSYNC fetches nothing (R24): the ports present one input per step, and a
stalled transport presents none, which is `IDLE` (R107). -/

namespace Sys2Proof.Machine

/-- The operation of this step, from the first input and the state (R51, R52, R62, R107). -/
def fetch (s : State) : Except DecodeReject Instr :=
  match s.input with
  | [] => .ok .idle
  | x :: _ => decode s.view x

end Sys2Proof.Machine
end

