-- ==== Sys2Proof/Machine/Step.lean ====
section
/-! DEFINITION. One step of the machine (R3, R50), and the placing of a word where the next step takes its input. -/

namespace Sys2Proof.Machine

/-- One step: the operation the ports ask for, run in the state whose first input is consumed. -/
def step (s : State) : Host.Outcome State Fault Refusal :=
  match fetch s with
  | .ok i => exec i s.popInput
  | .error why => .fault (.inputRejected why)

/-- The state whose next step word is `w` (notes/assumptions/3.md). A step word has ten bits and no operand words, so
`nbits` adds nothing. -/
def State.withFetchWord (s : State) (nbits w : Nat) : State :=
  match nbits with
  | _ => s.presentWord w

end Sys2Proof.Machine
end

