-- ==== Sys2Proof/Machine/Flags.lean ====
section
/-! DEFINITION. FSYNC has no flags register; the spec names four derived signals, functions of `PHASE` (R23), and
the signed view of `PHASE` itself (R17, R19). -/

namespace Sys2Proof.Machine

/-- `PHASE` as the signed integer of R17. -/
def phaseValue : Phase → Int
  | .seeking m => -(m.val : Int)
  | .filling r => (r : Int)

/-- `PHASE` of a state. -/
def State.PHASE (s : State) : Int := phaseValue s.phase

/-- `PHASE_W = 1 + ceil(log2(N + 1))` (R20); for positive `N`, `ceil(log2(N + 1))` is `log2 N + 1`. -/
def phaseWidth (n : Nat) : Nat := 1 + (n.log2 + 1)

/-- `PHASE` as a hardware realisation holds it: two's complement in `PHASE_W` bits (R20). No port shows it. -/
def phaseRegister (n : Nat) (p : Phase) : BitVec (phaseWidth n) := BitVec.ofInt (phaseWidth n) (phaseValue p)

/-- `SEEKING = (PHASE <= 0)` (R23). -/
def State.SEEKING (s : State) : Bool := decide (s.PHASE ≤ 0)

/-- `FILLING = (PHASE > 0)` (R23). -/
def State.FILLING (s : State) : Bool := decide (s.PHASE > 0)

/-- `MATCHED = -PHASE` when `SEEKING` (R23). -/
def State.MATCHED (s : State) : Option Nat :=
  if s.SEEKING then some (-s.PHASE).toNat else none

/-- `REMAINING = PHASE` when `FILLING` (R23). -/
def State.REMAINING (s : State) : Option Nat :=
  if s.FILLING then some s.PHASE.toNat else none

end Sys2Proof.Machine
end

