-- ==== Sys2Proof/Machine/Instances.lean ====
section
/-! DEFINITION. Several instances, each with its own state and configuration (R30, R104). Their steps may be
interleaved in any order (R43): the caller names the instance that moves. -/

namespace Sys2Proof.Machine

/-- One step of instance `k` of a list of instances; `none` when there is no such instance. -/
def stepInstance (instances : List State) (k : Nat) : Option (Host.Outcome (List State) Fault Refusal) :=
  match instances[k]? with
  | none => none
  | some s =>
    match step s with
    | .next t => some (.next (instances.set k t))
    | .fault r => some (.fault r)
    | .refused r => some (.refused r)

end Sys2Proof.Machine
end

