-- ==== Sys2Proof/Machine/Ports.lean ====
section
/-! DEFINITION. The bits on the output ports: the event word (R53), the diagnostic word (R54) and the decoder's
outputs (R55). -/

namespace Sys2Proof.Machine

/-- The event output (R53). `frame` is the value of the `8N` wires of `EV_FRAME`. -/
structure EventPort where
  valid  : BitVec 1
  kind   : BitVec 1
  reason : BitVec 2
  frame  : Nat
  deriving DecidableEq, Repr

/-- The code of a reason (R53, D26): 0 is `BAD_HEADER`. -/
def RejectReason.code : RejectReason → BitVec 2
  | .badHeader => 0

/-- R53: all fields are zero when no event is present; a rejection carries no frame. -/
def eventPort : Option Event → EventPort
  | none => { valid := 0, kind := 0, reason := 0, frame := 0 }
  | some (.frameReady bytes) => { valid := 1, kind := 0, reason := 0, frame := packFrame bytes }
  | some (.frameRejected why) => { valid := 1, kind := 1, reason := why.code, frame := 0 }

/-- The diagnostic output (R54). -/
structure DiagPort where
  valid : BitVec 1
  count : BitVec 2
  deriving DecidableEq, Repr

/-- R54: `MM_VALID` is 1 and `MM_COUNT` is `m` when there is a diagnostic, and `MM_VALID` is 0 when there is none. DESIGN
CHOICE: the spec gives `MM_COUNT` no value while `MM_VALID = 0` (R54 gives none, R53 speaks of the event output only, R27
says only that the output is empty); the model drives 0 (notes/assumptions/23.md; unsafe for a claim that reads it). -/
def diagPort : Option Diag → DiagPort
  | none => { valid := 0, count := 0 }
  | some (.headerMismatch m) => { valid := 1, count := BitVec.ofNat 2 m.val }

/-- The decoder's outputs for one entry of the layout (R55). -/
structure DecoderEntryPort where
  raw    : BitVec 32
  hasVal : BitVec 1
  val    : BitVec 64
  deriving DecidableEq, Repr

/-- The decoder's outputs (R55). -/
structure DecoderPort where
  status  : BitVec 1
  entries : List DecoderEntryPort
  deriving DecidableEq, Repr

/-- The outputs of one decoded field (R55): the value is zero when the entry has no scale. -/
def decoderEntryPort (f : FieldValue) : DecoderEntryPort :=
  match f.val with
  | none => { raw := BitVec.ofInt 32 f.raw, hasVal := 0, val := 0 }
  | some v => { raw := BitVec.ofInt 32 f.raw, hasVal := 1, val := v }

/-- R55, for a layout of `count` entries: with `DEC_STATUS = 1` every other output is zero. -/
def decoderPort (count : Nat) : DecodeResult → DecoderPort
  | .ok fields => { status := 0, entries := fields.map decoderEntryPort }
  | .decodeError _ => { status := 1, entries := List.replicate count { raw := 0, hasVal := 0, val := 0 } }

/-- The event port after a step word (R53: at most one event). -/
def State.eventPort (s : State) : EventPort := Sys2Proof.Machine.eventPort s.out.events.head?

/-- The diagnostic port after a step word (R54: at most one diagnostic; without one, notes/assumptions/23.md). -/
def State.diagPort (s : State) : DiagPort := Sys2Proof.Machine.diagPort s.out.diags.head?

/-- The decoder port after a `DECODE` (R55); `none` when the step was no `DECODE`. -/
def State.decoderPort (s : State) : Option DecoderPort :=
  s.out.decoded.map (Sys2Proof.Machine.decoderPort s.cfg.layout.length)

end Sys2Proof.Machine
end

