-- ==== Sys2Proof/Machine/Stimulus.lean ====
section
/-! DEFINITION. The stimulus notation of R60 and its expansion into inputs and step words (R61). What the grammar
leaves open, blanks and the case of hexadecimal letters, is in notes/assumptions/19.md. -/

namespace Sys2Proof.Machine

/-- One operation of the notation (R60). -/
inductive Stimulus where
  | rst
  | idle
  | byte (b : Byte)
  | chunk (bytes : List Byte)
  deriving DecidableEq, Repr

/-- The input that a line presents (R60, R61): a `CHUNK` line is one `ingest` call. -/
def Stimulus.input : Stimulus → PortInput
  | .rst => .stepWord resetWord
  | .idle => .stepWord idleWord
  | .byte b => .stepWord (byteWord b)
  | .chunk bytes => .ingest bytes

/-- The step words of a line (R60, R61). -/
def Stimulus.words : Stimulus → List StepWord
  | .rst => [resetWord]
  | .idle => [idleWord]
  | .byte b => [byteWord b]
  | .chunk bytes => bytes.map byteWord

/-- The step words of a program, in order. -/
def assemble (program : List Stimulus) : List StepWord := program.flatMap Stimulus.words

/-- The state whose ports will present a program, one step word a step. -/
def State.presentProgram (s : State) (program : List Stimulus) : State :=
  { s with input := (assemble program).map .stepWord ++ s.input }

/-! ### Reading the notation -/

/-- The value of a hexadecimal digit. -/
def hexDigit (c : Char) : Option Nat :=
  let n := c.toNat
  if 48 ≤ n ∧ n ≤ 57 then some (n - 48)
  else if 65 ≤ n ∧ n ≤ 70 then some (n - 55)
  else if 97 ≤ n ∧ n ≤ 102 then some (n - 87)
  else none

/-- `hex8`: two hexadecimal digits, with an optional `0x` in front (R60). -/
def hex8 : List Char → Option Byte
  | [a, b] =>
    match hexDigit a, hexDigit b with
    | some x, some y => some (BitVec.ofNat 8 (16 * x + y))
    | _, _ => none
  | ['0', 'x', a, b] =>
    match hexDigit a, hexDigit b with
    | some x, some y => some (BitVec.ofNat 8 (16 * x + y))
    | _, _ => none
  | _ => none

/-- A list of `hex8`; one that does not read makes the whole unreadable. -/
def hex8List : List (List Char) → Option (List Byte)
  | [] => some []
  | w :: ws =>
    match hex8 w, hex8List ws with
    | some b, some bs => some (b :: bs)
    | _, _ => none

/-- Cut a text at every character that `cut` holds of. -/
def splitText (cut : Char → Bool) : List Char → List (List Char)
  | [] => [[]]
  | c :: cs =>
    if cut c then [] :: splitText cut cs
    else
      match splitText cut cs with
      | [] => [[c]]
      | w :: ws => (c :: w) :: ws

/-- The words of a line: the text before `;`, cut at blanks. -/
def lineTokens (line : List Char) : List (List Char) :=
  (splitText (fun c => c == ' ' || c == '\t') (line.takeWhile (fun c => c != ';'))).filter (fun w => !w.isEmpty)

/-- `line := [ op ] [ ";" comment ]` (R60): no operation, one operation, or `none` when the line does not read. -/
def parseLine (line : List Char) : Option (List Stimulus) :=
  match lineTokens line with
  | [] => some []
  | op :: args =>
    if op = ['R', 'S', 'T'] then (if args.isEmpty then some [.rst] else none)
    else if op = ['I', 'D', 'L', 'E'] then (if args.isEmpty then some [.idle] else none)
    else if op = ['B', 'Y', 'T', 'E'] then
      match hex8List args with
      | some [b] => some [.byte b]
      | _ => none
    else if op = ['C', 'H', 'U', 'N', 'K'] then (hex8List args).map (fun bytes => [.chunk bytes])
    else none

/-- The operations of lines in order. -/
def parseLines : List (List Char) → Option (List Stimulus)
  | [] => some []
  | l :: ls =>
    match parseLine l, parseLines ls with
    | some a, some b => some (a ++ b)
    | _, _ => none

/-- `program := line*` (R60). -/
def parseProgram (text : List Char) : Option (List Stimulus) := parseLines (splitText (fun c => c == '\n') text)

end Sys2Proof.Machine
end

