-- ==== Sys2Proof/Safety.lean ====
section
/-! DEFINITION. What counts as a good state, and the terms in which claims are stated. -/

namespace Sys2Proof.Machine

/-- A state the machine can be in at a step boundary as far as single registers go: the configuration is admitted
(R96), `BUF` has `N` bytes in canonical form (R21), and `PHASE` is in `[-3, N]` (R18). -/
structure State.Sound (s : State) : Prop where
  admitted   : s.cfg.Admitted
  bufWf      : s.buf.wf s.n = true
  phaseLegal : s.phase.legal s.n = true

/-- The first `k` bytes of `BUF` are header bytes: `BUF[i] = HDR[i]` for every `i < k` (R22). -/
def State.HeaderPrefix (s : State) (k : Nat) : Prop := ∀ i, i < k → s.buf.read i = hdr s.cfg.magic i

/-- The invariant of a reachable state: a sound state with the defined prefix of R22. In strict mode every frame is
entered from seeking (R75), so while filling the header stands in `BUF[0..3]` and at most `N - 4` bytes are missing. -/
structure State.Inv (s : State) : Prop where
  sound        : s.Sound
  seekPrefix   : ∀ m, s.phase = .seeking m → s.HeaderPrefix m.val
  strictHeader : ∀ r, s.cfg.strict = true → s.phase = .filling r → r + 4 ≤ s.n ∧ s.HeaderPrefix 4

/-- The written prefix of `BUF` (R22): the bytes below the write pointer; the others are stale. -/
def State.SamePrefix (s t : State) : Prop :=
  ∀ i k, s.writeIndex = some k → i < k → s.buf.read i = t.buf.read i

/-- A step answers a next state for which `p` holds. -/
def nextSatisfies (o : StepResult) (p : State → Bool) : Bool :=
  match o with
  | .next s => p s
  | .fault _ => false
  | .refused _ => false

/-- The same outcome with every next state changed by `f`. -/
def mapState (f : State → State) (o : StepResult) : StepResult :=
  match o with
  | .next s => .next (f s)
  | .fault r => .fault r
  | .refused r => .refused r

/-- The state with the strict mode of its configuration set. -/
def State.withStrict (v : Bool) (s : State) : State := { s with cfg := { s.cfg with strict := v } }

/-- Operations one after another, their outputs joined in step order (as R78 joins those of a chunk's steps). -/
def feed : List Instr → State → StepResult
  | [], s => .next s.clearOut
  | i :: rest, s =>
    andThen (exec i s) fun s1 =>
      andThen (feed rest s1) fun s2 => .next (s2.prependOut s1.out)

/-- The bytes an operation of a partitioned stream presents: those of a chunk, none for any other (R80). -/
def chunkBytes : Instr → List Byte
  | .chunk bytes => bytes
  | .reset => []
  | .idle => []
  | .seekMatch _ => []
  | .seekAccept _ => []
  | .seekMismatch _ => []
  | .fill _ => []
  | .fillReady _ => []
  | .fillReject _ => []
  | .decode _ => []

/-- The four header bytes in stream order (R49). -/
def headerBytes (magic : Word32) : List Byte := [hdr magic 0, hdr magic 1, hdr magic 2, hdr magic 3]

/-- A valid frame: `N` bytes that begin with the header (R49). -/
def ValidFrame (c : Cfg) (frame : List Byte) : Prop :=
  frame.length = c.n ∧ frame.take 4 = headerBytes c.magic

/-- Every header byte is `h`: a uniform magic (R67). -/
def UniformMagic (magic : Word32) (h : Byte) : Prop := ∀ i, i < 4 → hdr magic i = h

/-- Four bytes `h` stand at index `i` of a stream (R67). -/
def RunAt (h : Byte) (stream : List Byte) (i : Nat) : Prop := ∀ k, k < 4 → stream[i + k]? = some h

/-- `i` is the least index at which four bytes `h` stand (R67). -/
def FirstRunAt (h : Byte) (stream : List Byte) (i : Nat) : Prop :=
  RunAt h stream i ∧ ∀ j, j < i → ¬ RunAt h stream j

/-- The length of the run of `h` at the end of a stream (R67). -/
def trailingRun (h : Byte) (stream : List Byte) : Nat := (stream.reverse.takeWhile (fun b => b == h)).length

/-- The value of a finite binary64 pattern (GK1). -/
def binary64Value (x : Binary64) : Rat :=
  (if binary64Sign x then -1 else 1) * ((binary64Significand x * 2 ^ binary64ScaleExp x : Nat) : Rat) / ((2 ^ 1074 : Nat) : Rat)

end Sys2Proof.Machine
end

