-- ==== Sys2Proof/Certificates/Slice0/Obligations.lean ====
section
/-! DEFINITION. The statements for the provers. Each docstring names the rule of spec/ it formalises. -/

open Sys2Proof Sys2Proof.Machine

/-! ### Encodings and selection -/

/-- R51, R58: the step word decodes by RST first, then VALID; a `BYTE` word is the operation that R52 selects. -/
def Obligations.StepWordDecode : Prop :=
  ∀ (v : SelectView) (w : StepWord),
    (0x200 ≤ w.toNat → decode v (.stepWord w) = .ok .reset) ∧
    (w.toNat < 0x100 → decode v (.stepWord w) = .ok .idle) ∧
    (∀ (b : Byte) (op : ByteOp), w.toNat = 0x100 + b.toNat → selectByte v b = some op →
      decode v (.stepWord w) = .ok (op.instr b)) ∧
    (0x200 ≤ w.toNat ∨ w.toNat < 0x100 ∨ ∃ b : Byte, w.toNat = 0x100 + b.toNat)

/-- Words written out from R50 and from table 2.1 of 95_test_vectors.md, decoder port bits from R55 and the words of a chunk
from R61, one or more for every operation. The clauses on `decodeTableWord` rest on the model's choices: it decodes in the
state after reset, with the default magic, and answers nothing for a number of more than ten bits
(notes/assumptions/5.md, notes/assumptions/2.md); that a chunk is one input is notes/assumptions/10.md. -/
def Obligations.KnownWords : Prop :=
  decodeTableWord 16 0x200 = some .reset ∧ decodeTableWord 16 0x3FE = some .reset ∧
  decodeTableWord 16 0x2AB = some .reset ∧ decodeTableWord 16 0x000 = some .idle ∧
  decodeTableWord 16 0x0FE = some .idle ∧ decodeTableWord 16 0x1FE = some (.seekMatch 0xFE#8) ∧
  decodeTableWord 16 0x100 = some (.seekMismatch 0x00#8) ∧ decodeTableWord 16 0x1FF = some (.seekMismatch 0xFF#8) ∧
  decodeTableWord 16 0x400 = none ∧
  decode { phase := .seeking 3, expected := 0xFE#8, headerOk := false } (.stepWord 0x1FE#10) =
    .ok (.seekAccept 0xFE#8) ∧
  decode { phase := .filling 8, expected := 0xFE#8, headerOk := true } (.stepWord 0x1FE#10) = .ok (.fill 0xFE#8) ∧
  decode { phase := .filling 1, expected := 0xFE#8, headerOk := true } (.stepWord 0x177#10) =
    .ok (.fillReady 0x77#8) ∧
  decode { phase := .filling 1, expected := 0xFE#8, headerOk := false } (.stepWord 0x155#10) =
    .ok (.fillReject 0x55#8) ∧
  decode resetView (.decFrame 3 0x0640FE) = .ok (.decode [0xFE#8, 0x40#8, 0x06#8]) ∧
  decode resetView (.ingest [0xFE#8, 0x11#8]) = .ok (.chunk [0xFE#8, 0x11#8]) ∧
  (Instr.chunk [0xFE#8, 0x11#8]).stepWords = [0x1FE#10, 0x111#10]

/-- Decode and encode agree for every operation, with every byte, frame and chunk (R50, R55, R60, R61): in a state
where the operation's condition holds, its encoding decodes to it. -/
def Obligations.EncodeDecodeRoundTrip : Prop :=
  ∀ (v : SelectView) (i : Instr), i.selectedIn v = true → decode v (encode i) = .ok i

/-- The decoder gives only operations whose state condition holds, and any input decodes as the canonical encoding of
its operation does: the ignored bits of R51 and R58 make no difference. -/
def Obligations.DecodedIsSelected : Prop :=
  ∀ (v : SelectView) (x : PortInput) (i : Instr), decode v x = .ok i →
    i.selectedIn v = true ∧ decode v (encode i) = .ok i

/-- R52: the six rows, with `BUF'` the buffer after the completing write; exactly one applies; the choice at completion
does not depend on the byte. -/
def Obligations.ByteSelection : Prop :=
  ∀ (s : State) (b : Byte), s.Sound →
    (selectByte s.view b = some .seekMatch ↔
      (s.PHASE = 0 ∨ s.PHASE = -1 ∨ s.PHASE = -2) ∧ b = hdr s.cfg.magic (-s.PHASE).toNat) ∧
    (selectByte s.view b = some .seekAccept ↔ s.PHASE = -3 ∧ b = hdr s.cfg.magic 3) ∧
    (selectByte s.view b = some .seekMismatch ↔ s.PHASE ≤ 0 ∧ b ≠ hdr s.cfg.magic (-s.PHASE).toNat) ∧
    (selectByte s.view b = some .fill ↔ 2 ≤ s.PHASE) ∧
    (selectByte s.view b = some .fillReady ↔
      s.PHASE = 1 ∧ le (s.buf.write (s.n - 1) b).read 0 4 = s.cfg.magic.toNat) ∧
    (selectByte s.view b = some .fillReject ↔
      s.PHASE = 1 ∧ le (s.buf.write (s.n - 1) b).read 0 4 ≠ s.cfg.magic.toNat) ∧
    (∃ op, selectByte s.view b = some op) ∧
    le (s.buf.write (s.n - 1) b).read 0 4 = le s.buf.read 0 4

/-- A `BYTE` operation whose state condition (R52) does not hold has no effect there and stops by name. That it stops
is the model's choice (notes/assumptions/6.md). -/
def Obligations.NotSelectedStops : Prop :=
  ∀ (i : Instr) (s : State), s.cfg.Admitted → i.selectedIn s.view = false → exec i s = .refused .notSelected

/-- R60, R61: the canonical words of the notation, and a chunk's words one after another leave what the chunk leaves. -/
def Obligations.ChunkIsItsWords : Prop :=
  Stimulus.rst.words = [0x200#10] ∧ Stimulus.idle.words = [0x000#10] ∧
  (∀ b : Byte, (Stimulus.byte b).words.map BitVec.toNat = [0x100 + b.toNat]) ∧
  (∀ bytes : List Byte, (Stimulus.chunk bytes).words = bytes.flatMap fun b => (Stimulus.byte b).words) ∧
  (∀ (s : State) (bytes : List Byte), s.Sound →
    ∃ t u, exec (.chunk bytes) { s with input := [] } = .next t ∧
      Sys2Proof.core.run bytes.length
        { s with input := (Stimulus.chunk bytes).words.map PortInput.stepWord } = .next u ∧
      u.phase = t.phase ∧ u.buf = t.buf ∧ u.pos = t.pos ∧ u.cfg = t.cfg ∧ u.input = [])

/-! ### The step -/

/-- A step runs the operation that its input decodes to, with the input consumed; with no input it is `IDLE` (R107);
an input that is no operation, which is only a `BYTE` word in `Filling(0)`, faults. The input list and the fault are the
model's own choices (notes/assumptions/3.md, notes/assumptions/9.md): R51 and R58 give no such stop. -/
def Obligations.StepRunsDecoded : Prop :=
  ∀ (s : State),
    (∀ x rest i, s.input = x :: rest → decode s.view x = .ok i → step s = exec i { s with input := rest }) ∧
    (s.input = [] → step s = exec .idle s) ∧
    (∀ x rest why, s.input = x :: rest → decode s.view x = .error why → step s = .fault (.inputRejected why))

/-- R97: every input has a step in every sound state; no step faults and none is refused. -/
def Obligations.StepTotal : Prop :=
  ∀ s : State, s.Sound → ∃ t, step s = .next t

/-- R25, R113: no step writes the configuration. -/
def Obligations.ConfigurationFixed : Prop :=
  ∀ s t : State, step s = .next t → t.cfg = s.cfg

/-- R27: outputs hold nothing across steps: what the ports showed before has no influence on a step. -/
def Obligations.OutputsNotCarried : Prop :=
  ∀ (s : State) (o : Outputs), step { s with out := o } = step s

/-- R99: a step word gives at most one event and one diagnostic, and never both; a reset word gives neither. -/
def Obligations.OneOutputPerStep : Prop :=
  ∀ (s t : State) (w : StepWord) (rest : List PortInput),
    s.input = .stepWord w :: rest → step s = .next t →
      t.out.events.length + t.out.diags.length ≤ 1 ∧
      (0x200 ≤ w.toNat → t.out.events = [] ∧ t.out.diags = [])

/-- R107: a stalled transport changes nothing, for any number of steps. That a step with an empty input list is `IDLE` is
the model's reading of R76 and R107 and not the spec's own words (notes/assumptions/3.md). -/
def Obligations.StalledTransport : Prop :=
  ∀ (s : State) (k : Nat), s.cfg.Admitted → s.input = [] →
    Sys2Proof.core.run (k + 1) s = .next { s with out := Outputs.none }

/-! ### Invariants -/

/-- R18, R21, R22, R41, R75: every step keeps the invariant of reachable states, and the part of it that speaks of single
registers on its own. -/
def Obligations.StepKeepsInvariant : Prop :=
  ∀ s t : State, step s = .next t → (s.Sound → t.Sound) ∧ (s.Inv → t.Inv)

/-- The invariant holds at reset, whose configuration is the model's choice (notes/assumptions/2.md). -/
def Obligations.ResetMeetsInvariant : Prop := State.reset.Inv

/-- R18 and the bijection of R19: `PHASE` of a legal phase lies in `[-3, N]`, distinct legal phases have distinct values, and
every value of the range is taken; `Seeking(m)` is `-m` and `Filling(r)` is `r`. -/
def Obligations.PhaseTagBijection : Prop :=
  (∀ m : Fin 4, phaseValue (.seeking m) = -(m.val : Int)) ∧
  (∀ r : Nat, phaseValue (.filling r) = (r : Int)) ∧
  ∀ n : Nat,
    (∀ p : Phase, p.legal n = true → -3 ≤ phaseValue p ∧ phaseValue p ≤ n) ∧
    (∀ p q : Phase, p.legal n = true → q.legal n = true → phaseValue p = phaseValue q → p = q) ∧
    (∀ z : Int, -3 ≤ z → z ≤ n → ∃ p : Phase, p.legal n = true ∧ phaseValue p = z)

/-- R20: the register of `PHASE_W` bits holds every legal phase, and `PHASE_W` is the smallest width whose two's
complement range contains `[-4, N]`. -/
def Obligations.PhaseRegisterWidth : Prop :=
  ∀ n : Nat, 5 ≤ n →
    phaseWidth n = 1 + Nat.clog 2 (n + 1) ∧
    (∀ p : Phase, p.legal n = true → (phaseRegister n p).toInt = phaseValue p) ∧
    (-(2 : Int) ^ (phaseWidth n - 1) ≤ -4 ∧ (n : Int) < 2 ^ (phaseWidth n - 1)) ∧
    (∀ w : Nat, 0 < w → -(2 : Int) ^ (w - 1) ≤ -4 → (n : Int) < 2 ^ (w - 1) → phaseWidth n ≤ w)

/-- R23: the four derived signals in either regime, and at reset. -/
def Obligations.DerivedSignals : Prop :=
  (∀ (s : State) (m : Fin 4), s.phase = .seeking m →
    s.SEEKING = true ∧ s.FILLING = false ∧ s.MATCHED = some m.val ∧ s.REMAINING = none) ∧
  (∀ (s : State) (r : Nat), s.phase = .filling r → 1 ≤ r →
    s.SEEKING = false ∧ s.FILLING = true ∧ s.MATCHED = none ∧ s.REMAINING = some r) ∧
  (∀ c : Cfg, (State.initial c).SEEKING = true ∧ (State.initial c).MATCHED = some 0)

/-- R41: the write index lies in `0..N-1`: `m` while seeking, `N - PHASE` while filling. -/
def Obligations.WriteInBounds : Prop :=
  ∀ s : State, s.Sound →
    ∃ i, s.writeIndex = some i ∧ i < s.n ∧
      (s.PHASE ≤ 0 → (i : Int) = -s.PHASE ∧ i ≤ 3) ∧ (0 < s.PHASE → (i : Int) = s.n - s.PHASE)

/-- R36: the header value equals MAGIC exactly when the four bytes are the header bytes. -/
def Obligations.HeaderCheckEquivalence : Prop :=
  ∀ (m : Memory) (magic : Word32),
    (le m.read 0 4 = magic.toNat ↔ ∀ i, i < 4 → m.read i = hdr magic i) ∧
    (headerValue m = magic ↔ le m.read 0 4 = magic.toNat)

/-- R22: no event and no diagnostic depends on a stale byte: two sound states with the same configuration, the same
`PHASE` and the same written prefix of `BUF` give the same outputs on every chunk. -/
def Obligations.StaleBytesUnobservable : Prop :=
  ∀ (s s' : State) (bytes : List Byte), s.Sound → s'.Sound → s.cfg = s'.cfg → s.phase = s'.phase →
    s.SamePrefix s' →
    ∃ t t', exec (.chunk bytes) s = .next t ∧ exec (.chunk bytes) s' = .next t' ∧
      t.out.events = t'.out.events ∧ t.out.diags = t'.out.diags ∧ t.phase = t'.phase

/-! ### The seeking family -/

/-- R63, SEEK_MATCH: effect, completion and frame. -/
def Obligations.SeekMatchEffect : Prop :=
  ∀ (s : State) (m : Fin 4) (b : Byte),
    s.Sound → s.phase = .seeking m → m.val < 3 → b = hdr s.cfg.magic m.val →
    (∀ w : StepWord, w.toNat = 0x100 + b.toNat → decode s.view (.stepWord w) = .ok (.seekMatch b)) ∧
    ∃ t, exec (.seekMatch b) s = .next t ∧
      t.PHASE = s.PHASE - 1 ∧ t.SEEKING = true ∧ t.MATCHED = some (m.val + 1) ∧
      (∀ i, t.buf.read i = if i = m.val then b else s.buf.read i) ∧
      (s.HeaderPrefix m.val → t.HeaderPrefix (m.val + 1)) ∧
      t.out = { events := [], diags := [], decoded := none } ∧
      t.pos = s.pos + 1 ∧ t.cfg = s.cfg ∧ t.input = s.input

/-- R64, SEEK_ACCEPT: effect, completion and frame; the strict mode makes no difference. -/
def Obligations.SeekAcceptEffect : Prop :=
  ∀ (s : State) (b : Byte),
    s.Sound → s.phase = .seeking 3 → b = hdr s.cfg.magic 3 →
    (∀ w : StepWord, w.toNat = 0x100 + b.toNat → decode s.view (.stepWord w) = .ok (.seekAccept b)) ∧
    ∃ t, exec (.seekAccept b) s = .next t ∧
      t.PHASE = s.cfg.frameSize - 4 ∧ 1 ≤ t.PHASE ∧ t.FILLING = true ∧ t.REMAINING = some (s.n - 4) ∧
      t.writeIndex = some 4 ∧
      (∀ i, t.buf.read i = if i = 3 then b else s.buf.read i) ∧
      (s.HeaderPrefix 3 → t.HeaderPrefix 4) ∧
      t.out = { events := [], diags := [], decoded := none } ∧
      t.pos = s.pos + 1 ∧ t.cfg = s.cfg ∧ t.input = s.input

/-- R65, SEEK_MISMATCH: effect, completion and frame; the byte is neither stored nor retried. -/
def Obligations.SeekMismatchEffect : Prop :=
  ∀ (s : State) (m : Fin 4) (b : Byte),
    s.Sound → s.phase = .seeking m → b ≠ hdr s.cfg.magic m.val →
    (∀ w : StepWord, w.toNat = 0x100 + b.toNat → decode s.view (.stepWord w) = .ok (.seekMismatch b)) ∧
    ∃ t, exec (.seekMismatch b) s = .next t ∧
      t.PHASE = 0 ∧ t.SEEKING = true ∧ t.MATCHED = some 0 ∧ t.buf = s.buf ∧
      t.out = { events := [], diags := [.headerMismatch m], decoded := none } ∧
      t.pos = s.pos + 1 ∧ t.cfg = s.cfg ∧ t.input = s.input

/-- R66: the rule's two streams never start a frame, a mismatch never retries its byte, and for a magic of four equal bytes
the rule loses nothing. -/
def Obligations.NoRetry : Prop :=
  (∀ (s : State) (j : Nat), s.Sound → s.phase = .seeking 0 → s.cfg.magic = 0x44332211#32 →
    ∃ t, exec (.chunk (([0x11#8, 0x11#8, 0x22#8, 0x33#8, 0x44#8] : List Byte).take j)) s = .next t ∧
      t.SEEKING = true ∧ t.out.events = [] ∧
      t.out.diags = ([Diag.headerMismatch 1, Diag.headerMismatch 0, Diag.headerMismatch 0,
        Diag.headerMismatch 0].take (j - 1))) ∧
  (∀ (s : State) (j : Nat), s.Sound → s.phase = .seeking 0 → s.cfg.magic = 0x43414241#32 →
    ∃ t, exec (.chunk (([0x41#8, 0x42#8, 0x41#8, 0x42#8, 0x41#8, 0x43#8] : List Byte).take j)) s = .next t ∧
      t.SEEKING = true ∧ t.out.events = []) ∧
  (∀ (s : State) (m : Fin 4) (b : Byte), s.Sound → s.phase = .seeking m → b ≠ hdr s.cfg.magic m.val →
    ∃ t, exec (.chunk [b]) s = .next t ∧ t.phase = .seeking 0) ∧
  (∀ (magic : Word32) (h b : Byte) (m : Nat), UniformMagic magic h → m < 4 → b ≠ hdr magic m → b ≠ hdr magic 0)

/-- R67: with a uniform magic, from `Seeking(0)`: while no four `h` stand in a row the block seeks, with `MATCHED` the
length of the current run of `h`; it starts filling exactly after the first four. -/
def Obligations.UniformSeekEnds : Prop :=
  ∀ (s : State) (h : Byte) (stream : List Byte), s.Sound → s.phase = .seeking 0 → UniformMagic s.cfg.magic h →
    ((∀ i, ¬ RunAt h stream i) →
      ∃ t m, exec (.chunk stream) s = .next t ∧ t.phase = .seeking m ∧ m.val = trailingRun h stream ∧
        t.out.events = []) ∧
    (∀ i, FirstRunAt h stream i →
      (∃ t, exec (.chunk (stream.take (i + 4))) s = .next t ∧ t.phase = .filling (s.n - 4) ∧ t.out.events = []) ∧
      (∀ j, j < i + 4 → ∃ t, exec (.chunk (stream.take j)) s = .next t ∧ t.SEEKING = true))

/-- R68: a frame entered by SEEK_ACCEPT always validates and is emitted whole, header first, in stream order (R34). -/
def Obligations.AcceptedFrameValidates : Prop :=
  ∀ (s : State) (payload : List Byte),
    s.Sound → s.phase = .seeking 3 → s.HeaderPrefix 3 → payload.length + 4 = s.n →
    ∃ t, exec (.chunk (hdr s.cfg.magic 3 :: payload)) s = .next t ∧
      t.out.events = [.frameReady (headerBytes s.cfg.magic ++ payload)] ∧ t.out.diags = [] ∧
      t.phase = if s.cfg.strict then .seeking 0 else .filling s.n

/-! ### The filling family -/

/-- R69, FILL: effect, completion and frame; the byte's value does not matter. -/
def Obligations.FillEffect : Prop :=
  ∀ (s : State) (r : Nat) (b : Byte),
    s.Sound → s.phase = .filling r → 2 ≤ r →
    (∀ w : StepWord, w.toNat = 0x100 + b.toNat → decode s.view (.stepWord w) = .ok (.fill b)) ∧
    ∃ t, exec (.fill b) s = .next t ∧
      t.PHASE = s.PHASE - 1 ∧ t.FILLING = true ∧ t.REMAINING = some (r - 1) ∧
      (∀ i, t.buf.read i = if i = s.n - r then b else s.buf.read i) ∧
      t.out = { events := [], diags := [], decoded := none } ∧
      t.pos = s.pos + 1 ∧ t.cfg = s.cfg ∧ t.input = s.input

/-- R70 and R72, FILL_READY: effect, completion and frame; the event carries `BUF[0..N-1]` after the write. -/
def Obligations.FillReadyEffect : Prop :=
  ∀ (s : State) (b : Byte),
    s.Sound → s.phase = .filling 1 → le s.buf.read 0 4 = s.cfg.magic.toNat →
    (∀ w : StepWord, w.toNat = 0x100 + b.toNat → decode s.view (.stepWord w) = .ok (.fillReady b)) ∧
    ∃ t frame, exec (.fillReady b) s = .next t ∧
      t.PHASE = (if s.cfg.strict then 0 else s.cfg.frameSize) ∧
      (s.cfg.strict = false → t.FILLING = true ∧ t.REMAINING = some s.n ∧ t.writeIndex = some 0) ∧
      (∀ i, t.buf.read i = if i = s.n - 1 then b else s.buf.read i) ∧
      t.out = { events := [.frameReady frame], diags := [], decoded := none } ∧
      frame.length = s.n ∧ (∀ j, j < s.n → frame[j]? = some (t.buf.read j)) ∧
      t.pos = s.pos + 1 ∧ t.cfg = s.cfg ∧ t.input = s.input

/-- R71, FILL_REJECT: effect, completion and frame; the other bytes of `BUF` stay; in a reachable state it never occurs in
strict mode. -/
def Obligations.FillRejectEffect : Prop :=
  ∀ (s : State) (b : Byte),
    s.Sound → s.phase = .filling 1 → le s.buf.read 0 4 ≠ s.cfg.magic.toNat →
    (∀ w : StepWord, w.toNat = 0x100 + b.toNat → decode s.view (.stepWord w) = .ok (.fillReject b)) ∧
    ∃ t, exec (.fillReject b) s = .next t ∧
      t.PHASE = 0 ∧ t.SEEKING = true ∧ t.MATCHED = some 0 ∧
      (∀ i, t.buf.read i = if i = s.n - 1 then b else s.buf.read i) ∧
      t.out = { events := [.frameRejected .badHeader], diags := [], decoded := none } ∧
      t.pos = s.pos + 1 ∧ t.cfg = s.cfg ∧ t.input = s.input ∧ (s.Inv → s.cfg.strict = false)

/-- R72: the strict mode changes the phase after FILL_READY and nothing else: every other operation but CHUNK, which is
made of these, does the same in both modes. -/
def Obligations.StrictAffectsOnlyReady : Prop :=
  (∀ (i : Instr) (s : State), (∀ b, i ≠ .fillReady b) → (∀ bytes, i ≠ .chunk bytes) →
    exec i (s.withStrict true) = mapState (State.withStrict true) (exec i (s.withStrict false))) ∧
  (∀ (s : State) (b : Byte), s.Sound → s.phase = .filling 1 → le s.buf.read 0 4 = s.cfg.magic.toNat →
    ∃ t, exec (.fillReady b) (s.withStrict true) = .next t ∧ t.phase = .seeking 0 ∧
      exec (.fillReady b) (s.withStrict false) = .next ((t.withStrict false).setPhase (.filling s.n)))

/-- R73: while filling, the byte decides only what is stored: the operation and the next phase are the same for every
byte, the other bytes of `BUF` are the same, and no header is looked for. -/
def Obligations.NoScanWhileFilling : Prop :=
  ∀ (s : State) (r : Nat) (b b' : Byte), s.Sound → s.phase = .filling r →
    selectByte s.view b = selectByte s.view b' ∧
    ∃ t t', exec (.chunk [b]) s = .next t ∧ exec (.chunk [b']) s = .next t' ∧
      t.phase = t'.phase ∧ (2 ≤ r → t.phase = .filling (r - 1) ∧ t.out.events = []) ∧
      (∀ i, i ≠ s.n - r → t.buf.read i = t'.buf.read i) ∧ t.out.diags = [] ∧ t'.out.diags = []

/-- R74: from a re-armed state the next `N` bytes are the next candidate, whatever they are: emitted when they begin with
the header, otherwise rejected once, at their last byte, with the block seeking after it. -/
def Obligations.RearmedFrame : Prop :=
  ∀ (s : State) (frame : List Byte),
    s.Sound → s.cfg.strict = false → s.phase = .filling s.n → frame.length = s.n →
    (∀ j, j < s.n → ∃ t, exec (.chunk (frame.take j)) s = .next t ∧ t.out.events = [] ∧ t.out.diags = [] ∧
      t.phase = .filling (s.n - j)) ∧
    (frame.take 4 = headerBytes s.cfg.magic →
      ∃ t, exec (.chunk frame) s = .next t ∧ t.out.events = [.frameReady frame] ∧ t.phase = .filling s.n) ∧
    (frame.take 4 ≠ headerBytes s.cfg.magic →
      ∃ t, exec (.chunk frame) s = .next t ∧ t.out.events = [.frameRejected .badHeader] ∧ t.phase = .seeking 0)

/-- R75: in strict mode no reachable step emits `FrameRejected`. -/
def Obligations.StrictNeverRejects : Prop :=
  ∀ s t : State, s.Inv → s.cfg.strict = true → step s = .next t → ∀ why, Event.frameRejected why ∉ t.out.events

/-- R75: on back-to-back valid frames from `Seeking(0)` every frame is emitted once, in order, and nothing else, in the
strict and in the compatible mode alike. -/
def Obligations.BackToBackFrames : Prop :=
  ∀ (s : State) (frames : List (List Byte)), s.Sound → s.phase = .seeking 0 →
    (∀ g, g ∈ frames → ValidFrame s.cfg g) →
    ∃ t, exec (.chunk frames.flatten) s = .next t ∧ t.out.events = frames.map Event.frameReady ∧ t.out.diags = [] ∧
      (frames ≠ [] → t.phase = if s.cfg.strict then .seeking 0 else .filling s.n)

/-! ### Stream control and the chunk contract -/

/-- R76, IDLE: nothing changes, no event, no diagnostic, for any number of IDLE steps; every word below `0x100` is
`IDLE`. -/
def Obligations.IdleEffect : Prop :=
  ∀ s : State, s.cfg.Admitted →
    (∀ w : StepWord, w.toNat < 0x100 → decode s.view (.stepWord w) = .ok .idle) ∧
    ∃ t, exec .idle s = .next t ∧ t.phase = s.phase ∧ t.buf = s.buf ∧ t.pos = s.pos ∧ t.cfg = s.cfg ∧
      t.input = s.input ∧ t.out = { events := [], diags := [], decoded := none } ∧
      ∀ (w : StepWord) (k : Nat), w.toNat < 0x100 →
        Sys2Proof.core.run (k + 1) { s with input := List.replicate (k + 1) (.stepWord w) } =
          .next { s with input := [], out := Outputs.none }

/-- R77, R29, R108, RESET: from any state of an admitted instance, the state of a newly created instance with the same
`CFG`; no event; every word from `0x200` on is `RESET`. The input list is the model's and stays. -/
def Obligations.ResetEffect : Prop :=
  ∀ s : State, s.cfg.Admitted →
    (∀ w : StepWord, 0x200 ≤ w.toNat → decode s.view (.stepWord w) = .ok .reset) ∧
    ∃ t, exec .reset s = .next t ∧ t.PHASE = 0 ∧ t.SEEKING = true ∧ t.MATCHED = some 0 ∧
      (∀ i, t.buf.read i = 0x00#8) ∧ t.pos = 0 ∧
      t.out = { events := [], diags := [], decoded := none } ∧ t.cfg = s.cfg ∧ t.input = s.input ∧
      (∀ nMax : Nat, s.cfg.frameSize ≤ (nMax : Int) → State.create nMax s.cfg = .ok { t with input := [] })

/-- R78, R79, CHUNK: `ingest` of no byte changes nothing; of a byte and a rest, it is the step of the byte's word and then
`ingest` of the rest, with the outputs joined; every byte is consumed once (R33). -/
def Obligations.ChunkEffect : Prop :=
  (∀ s : State, s.cfg.Admitted → exec (.chunk []) s = .next { s with out := Outputs.none }) ∧
  (∀ (s s1 s2 : State) (b : Byte) (rest : List Byte) (w : StepWord), w.toNat = 0x100 + b.toNat →
    step { s with input := .stepWord w :: s.input } = .next s1 → exec (.chunk rest) s1 = .next s2 →
    ∃ t, exec (.chunk (b :: rest)) s = .next t ∧ t.phase = s2.phase ∧ t.buf = s2.buf ∧ t.pos = s2.pos ∧
      t.cfg = s2.cfg ∧ t.input = s2.input ∧ t.out.events = s1.out.events ++ s2.out.events ∧
      t.out.diags = s1.out.diags ++ s2.out.diags ∧ t.out.decoded = none) ∧
  (∀ (s : State) (bytes : List Byte), s.Sound →
    ∃ t, exec (.chunk bytes) s = .next t ∧ t.Sound ∧ t.cfg = s.cfg ∧ t.input = s.input ∧
      t.pos = s.pos + bytes.length)

/-- R80: chunk-boundary independence, for every state; and any partition of a stream into chunks with `IDLE` steps
anywhere gives what the whole stream in one chunk gives. -/
def Obligations.ChunkBoundaryIndependence : Prop :=
  (∀ (s s1 s2 : State) (c1 c2 : List Byte), exec (.chunk c1) s = .next s1 → exec (.chunk c2) s1 = .next s2 →
    ∃ t, exec (.chunk (c1 ++ c2)) s = .next t ∧ t.phase = s2.phase ∧ t.buf = s2.buf ∧ t.pos = s2.pos ∧
      t.cfg = s2.cfg ∧ t.input = s2.input ∧ t.out.events = s1.out.events ++ s2.out.events ∧
      t.out.diags = s1.out.diags ++ s2.out.diags) ∧
  (∀ (s : State) (parts : List Instr), s.cfg.Admitted →
    (∀ i, i ∈ parts → i = .idle ∨ ∃ bytes, i = .chunk bytes) →
    feed parts s = exec (.chunk (parts.flatMap chunkBytes)) s)

/-- R82: a stream that never completes a header leaves the block seeking, with no event. -/
def Obligations.NeverHeaderNoEvent : Prop :=
  (∀ (s : State) (m : Fin 4) (stream : List Byte), s.Sound → s.phase = .seeking m →
    (∀ j, j ≤ stream.length → ∃ t, exec (.chunk (stream.take j)) s = .next t ∧ t.PHASE ≤ 0) →
    ∃ t, exec (.chunk stream) s = .next t ∧ t.PHASE ≤ 0 ∧ t.out.events = []) ∧
  (∀ (s : State) (h : Byte) (stream : List Byte), s.Sound → s.phase = .seeking 0 →
    UniformMagic s.cfg.magic h → (∀ i, ¬ RunAt h stream i) →
    ∀ j, j ≤ stream.length →
      ∃ t, exec (.chunk (stream.take j)) s = .next t ∧ t.PHASE ≤ 0 ∧ t.out.events = [])

/-- R83: resync, exactly: when the genuine frames begin at the first four `h` seen from `Seeking(0)`, each is emitted at its
last byte, in order, and nothing before. -/
def Obligations.ResyncExact : Prop :=
  ∀ (s : State) (h : Byte) (garbage : List Byte) (frames : List (List Byte)), s.Sound → s.phase = .seeking 0 →
    UniformMagic s.cfg.magic h → frames ≠ [] → (∀ g, g ∈ frames → ValidFrame s.cfg g) →
    FirstRunAt h (garbage ++ frames.flatten) garbage.length →
    ∀ j, j ≤ (garbage ++ frames.flatten).length →
      ∃ t, exec (.chunk ((garbage ++ frames.flatten).take j)) s = .next t ∧
        t.out.events = (frames.take ((j - garbage.length) / s.n)).map Event.frameReady

/-- R84: event spacing: at most `floor(n / N)` events in `n` bytes after a reset, and none within fewer than `N` bytes of
an event or a reset. -/
def Obligations.EventSpacing : Prop :=
  (∀ (c : Cfg) (bytes : List Byte), c.Admitted →
    ∃ t, exec (.chunk bytes) (State.initial c) = .next t ∧ t.out.events.length ≤ bytes.length / c.n) ∧
  (∀ (s : State) (bytes : List Byte), s.Sound → (s.phase = .filling s.n ∨ s.phase = .seeking 0) →
    bytes.length < s.n → ∃ t, exec (.chunk bytes) s = .next t ∧ t.out.events = [])

/-! ### The decoder -/

/-- R85, R87, R89, DECODE of a frame that every entry fits: the fields in layout order; nothing else changes. Two's complement
and the arithmetic of `div64` are PRESUMED by the model (GK2, notes/assumptions/13.md; GK1, notes/assumptions/12.md). -/
def Obligations.DecodeFits : Prop :=
  ∀ (s : State) (frame : List Byte), s.cfg.Admitted →
    (∀ f, f ∈ s.cfg.layout → f.offset + 4 ≤ (frame.length : Int)) →
    ∃ fields, exec (.decode frame) s =
        .next { s with out := { events := [], diags := [], decoded := some (.ok fields) } } ∧
      fields.length = s.cfg.layout.length ∧
      ∀ (k : Nat) (f : LayoutEntry), s.cfg.layout[k]? = some f →
        ∃ b0 b1 b2 b3 : Byte,
          frame[f.offset.toNat]? = some b0 ∧ frame[f.offset.toNat + 1]? = some b1 ∧
          frame[f.offset.toNat + 2]? = some b2 ∧ frame[f.offset.toNat + 3]? = some b3 ∧
          fields[k]? = some
            { name := f.name
              raw := ((b3 ++ b2 ++ b1 ++ b0 : BitVec 32)).toInt
              val := f.scale.map (div64 ((b3 ++ b2 ++ b1 ++ b0 : BitVec 32)).toInt) }

/-- R88, DECODE of a frame that some entry does not fit: `DecodeError` with the lowest such entry, no field, and nothing
else changes. -/
def Obligations.DecodeMisfit : Prop :=
  ∀ (s : State) (frame : List Byte), s.cfg.Admitted →
    (∃ f, f ∈ s.cfg.layout ∧ f.offset + f.width > (frame.length : Int)) →
    ∃ k f, s.cfg.layout[k]? = some f ∧ f.offset + f.width > (frame.length : Int) ∧
      (∀ j g, j < k → s.cfg.layout[j]? = some g → g.offset + g.width ≤ (frame.length : Int)) ∧
      exec (.decode frame) s =
        .next { s with out := { events := [], diags := [], decoded := some (.decodeError k) } }

/-- R90: DECODE is a function of the frame and the layout alone: the state and the rest of the configuration, MAGIC among
it, have no influence, and no state is written. -/
def Obligations.DecodePure : Prop :=
  ∀ (s s' : State) (frame : List Byte), s.cfg.Admitted → s'.cfg.Admitted → s.cfg.layout = s'.cfg.layout →
    ∃ t t', exec (.decode frame) s = .next t ∧ exec (.decode frame) s' = .next t' ∧ t.out = t'.out ∧
      t = { s with out := t.out } ∧ t' = { s' with out := t'.out }

/-- R119: an entry that does not fit in `N` bytes makes every decode of an `N`-byte frame fail, although the
configuration is admitted; when every entry fits, every decode succeeds. -/
def Obligations.LayoutAgainstFrameSize : Prop :=
  (∀ (s : State) (f : LayoutEntry) (frame : List Byte), s.cfg.Admitted → f ∈ s.cfg.layout →
    f.offset + 4 > s.cfg.frameSize → frame.length = s.n →
    ∃ t k, exec (.decode frame) s = .next t ∧ t.out.decoded = some (.decodeError k)) ∧
  (∀ (s : State) (frame : List Byte), s.cfg.Admitted →
    (∀ f, f ∈ s.cfg.layout → f.offset + 4 ≤ s.cfg.frameSize) → frame.length = s.n →
    ∃ t fields, exec (.decode frame) s = .next t ∧ t.out.decoded = some (.ok fields)) ∧
  (∀ (c : Cfg) (offset : Int), c.Admitted → 0 ≤ offset →
    ({ c with layout := c.layout ++ [{ offset := offset, width := 4, scale := none, name := "" }] } : Cfg).Admitted)

/-- R87: the raw value, from four bytes anywhere in a frame, and its range. That signed means two's complement is general
knowledge that R87 itself marks as not in its source (GK2), PRESUMED by the model (notes/assumptions/13.md). -/
def Obligations.RawFieldValue : Prop :=
  ∀ (before after : List Byte) (b0 b1 b2 b3 : Byte),
    rawField (before ++ [b0, b1, b2, b3] ++ after) before.length =
      (if b3.toNat < 128 then
        (b0.toNat + 2 ^ 8 * b1.toNat + 2 ^ 16 * b2.toNat + 2 ^ 24 * b3.toNat : Int)
      else (b0.toNat + 2 ^ 8 * b1.toNat + 2 ^ 16 * b2.toNat + 2 ^ 24 * b3.toNat : Int) - 2 ^ 32) ∧
    -2 ^ 31 ≤ rawField (before ++ [b0, b1, b2, b3] ++ after) before.length ∧
    rawField (before ++ [b0, b1, b2, b3] ++ after) before.length ≤ 2 ^ 31 - 1

/-- R89: the rounding of a quotient to an integer is to the nearest, with ties to the even one. The rounding is general
knowledge that R89 marks as not in its source (GK1), PRESUMED by the model (notes/assumptions/12.md). -/
def Obligations.RoundHalfEven : Prop :=
  ∀ num den : Nat, 0 < den →
    2 * (roundHalfEven num den * den) ≤ 2 * num + den ∧ 2 * num ≤ 2 * (roundHalfEven num den * den) + den ∧
    (2 * (roundHalfEven num den * den) = 2 * num + den ∨ 2 * num = 2 * (roundHalfEven num den * den) + den →
      roundHalfEven num den % 2 = 0)

/-- R89, for an admitted scale (R86): negating a raw value other than 0 flips the sign bit of the scaled value and nothing
else, and `0 / s` is a zero of the sign of `s`; the corrected worked example S1 is `6713344.0` (C2). Signs and zeros are
those of binary64 division, which R89 marks as general knowledge (GK1), PRESUMED by the model
(notes/assumptions/12.md). -/
def Obligations.Div64Signs : Prop :=
  (∀ (raw : Int) (s : Binary64), scaleAdmitted (some s) = true → raw ≠ 0 →
    div64 (-raw) s = div64 raw s ^^^ 0x8000000000000000#64) ∧
  (∀ s : Binary64, scaleAdmitted (some s) = true →
    div64 0 s = if s.getLsbD 63 then 0x8000000000000000#64 else 0#64) ∧
  div64 1074135040 Config.scale160 = 0x41599C0000000000#64

/-- R89: for an admitted scale and a 32-bit raw value whose quotient is in range, the scaled value is finite and no finite
binary64 value is nearer to the exact quotient; when another is as near, the result's last place is even. The format
and the rounding are the spec's from general knowledge (GK1; notes/assumptions/12.md). -/
def Obligations.Div64Nearest : Prop :=
  ∀ (raw : Int) (s : Binary64), scaleAdmitted (some s) = true → -2 ^ 31 ≤ raw → raw ≤ 2 ^ 31 - 1 →
    |(raw : ℚ) / binary64Value s| < 2 ^ 1024 - 2 ^ 970 →
    binary64Finite (div64 raw s) = true ∧
    ∀ z : Binary64, binary64Finite z = true →
      |(raw : ℚ) / binary64Value s - binary64Value (div64 raw s)| ≤ |(raw : ℚ) / binary64Value s - binary64Value z| ∧
      (|(raw : ℚ) / binary64Value s - binary64Value (div64 raw s)| = |(raw : ℚ) / binary64Value s - binary64Value z| →
        binary64Value z ≠ binary64Value (div64 raw s) → (div64 raw s).getLsbD 0 = false)

/-! ### Configuration, creation, ports and instances -/

/-- R96: the reasons of a refusal and their codes, the lowest one reported; a refused configuration gives no instance. That
every operation on it is refused by name is the model's reading of `has no behaviour` (notes/assumptions/7.md). -/
def Obligations.AdmissionTable : Prop :=
  (∀ c : Cfg,
    (c.configError = some .frameSizeTooSmall ↔ c.frameSize ≤ 4) ∧
    (c.configError = some .fieldWidthUnsupported ↔ 4 < c.frameSize ∧ ∃ f, f ∈ c.layout ∧ f.width ≠ 4) ∧
    (c.configError = some .fieldOffsetNegative ↔
      4 < c.frameSize ∧ (∀ f, f ∈ c.layout → f.width = 4) ∧ ∃ f, f ∈ c.layout ∧ f.offset < 0) ∧
    (c.configError = some .fieldScaleInvalid ↔
      4 < c.frameSize ∧ (∀ f, f ∈ c.layout → f.width = 4 ∧ 0 ≤ f.offset) ∧
      ∃ f x, f ∈ c.layout ∧ f.scale = some x ∧ (x.toNat / 2 ^ 52 % 2 ^ 11 = 2047 ∨ x.toNat % 2 ^ 63 = 0)) ∧
    c.configError ≠ some .frameSizeAboveMax) ∧
  (ConfigError.code .frameSizeTooSmall = some 1 ∧ ConfigError.code .fieldWidthUnsupported = some 2 ∧
    ConfigError.code .fieldOffsetNegative = some 3 ∧ ConfigError.code .fieldScaleInvalid = some 4) ∧
  (∀ (c : Cfg) (e : ConfigError) (nMax : Nat), c.configError = some e → State.create nMax c = .error e) ∧
  (∀ (s : State) (i : Instr) (e : ConfigError), s.cfg.configError = some e →
    exec i s = .refused (.configRefused e))

/-- R29, R109, R111: creation of an instance: the admission check, then the bound N_MAX (D3), then the reset state, which
meets the invariant. That a size above N_MAX is refused is the spec's (U7); the name of that refusal,
`frameSizeAboveMax`, and its place after the admission check are the model's choice (notes/assumptions/14.md). -/
def Obligations.CreatedInstance : Prop :=
  ∀ (nMax : Nat) (c : Cfg),
    (c.Admitted → c.frameSize ≤ (nMax : Int) →
      ∃ s, State.create nMax c = .ok s ∧ s.Inv ∧ s.cfg = c ∧ s.PHASE = 0 ∧ (∀ i, s.buf.read i = 0x00#8) ∧ s.pos = 0 ∧
        s.out = { events := [], diags := [], decoded := none }) ∧
    (c.Admitted → (nMax : Int) < c.frameSize → State.create nMax c = .error .frameSizeAboveMax)

/-- R53: the bits of the event output. -/
def Obligations.EventPortBits : Prop :=
  (∀ frame : List Byte,
    (eventPort (some (.frameReady frame))).valid = 1 ∧ (eventPort (some (.frameReady frame))).kind = 0 ∧
    (eventPort (some (.frameReady frame))).reason = 0 ∧
    (eventPort (some (.frameReady frame))).frame < 2 ^ (8 * frame.length) ∧
    ∀ (j : Nat) (b : Byte), frame[j]? = some b →
      (eventPort (some (.frameReady frame))).frame / 2 ^ (8 * j) % 2 ^ 8 = b.toNat) ∧
  eventPort (some (.frameRejected .badHeader)) = { valid := 1, kind := 1, reason := 0, frame := 0 } ∧
  eventPort none = { valid := 0, kind := 0, reason := 0, frame := 0 }

/-- R54, R65: a diagnostic comes from SEEK_MISMATCH only, always does, and its word carries the count of matched bytes.
That `MM_COUNT` is 0 while there is no diagnostic is the model's choice (notes/assumptions/23.md). -/
def Obligations.DiagnosticOnlyOnMismatch : Prop :=
  (∀ (i : Instr) (s t : State), (∀ bytes, i ≠ .chunk bytes) → (∀ b, i ≠ .seekMismatch b) → exec i s = .next t →
    t.out.diags = [] ∧ t.diagPort.valid = 0 ∧ t.diagPort.count = 0) ∧
  (∀ (b : Byte) (s t : State), exec (.seekMismatch b) s = .next t →
    ∃ m, s.phase = .seeking m ∧ t.out.diags = [.headerMismatch m] ∧
      t.diagPort.valid = 1 ∧ t.diagPort.count.toNat = m.val)

/-- R55: the bits of the decoder's outputs after a DECODE. -/
def Obligations.DecoderPortBits : Prop :=
  ∀ (s t : State) (frame : List Byte), exec (.decode frame) s = .next t →
    ∃ port, t.decoderPort = some port ∧ port.entries.length = s.cfg.layout.length ∧
      (∀ k, t.out.decoded = some (.decodeError k) →
        port.status = 1 ∧ ∀ e, e ∈ port.entries → e = { raw := 0, hasVal := 0, val := 0 }) ∧
      (∀ fields, t.out.decoded = some (.ok fields) →
        port.status = 0 ∧
        ∀ (k : Nat) (f : FieldValue), fields[k]? = some f →
          ∃ e, port.entries[k]? = some e ∧ e.raw.toInt = f.raw ∧
            (f.val = none → e.hasVal = 0 ∧ e.val = 0) ∧ (∀ x, f.val = some x → e.hasVal = 1 ∧ e.val = x))

/-- R30, R104: instances share nothing: a step of one leaves every other as it was. -/
def Obligations.InstancesIndependent : Prop :=
  ∀ (instances after : List State) (k : Nat), stepInstance instances k = some (.next after) →
    after.length = instances.length ∧ (∀ j, j ≠ k → after[j]? = instances[j]?) ∧
    ∃ s t, instances[k]? = some s ∧ step s = .next t ∧ after[k]? = some t
end

