-- ==== Sys2Proof/Laws/Decode.lean ====
section
/-! SUPPORT. What the decoder does with the canonical words and what a selection says of the state. -/

namespace Sys2Proof

/-- The canonical `BYTE` word asks for its byte. -/
theorem decodeStepWord_byteWord : ∀ b : Byte, decodeStepWord (byteWord b) = .byte b := by decide

theorem decodeStepWord_resetWord : decodeStepWord resetWord = .reset := by decide

theorem decodeStepWord_idleWord : decodeStepWord idleWord = .idle := by decide

/-- Everything a selection can be: the operation's state condition holds. -/
theorem selectByte_selectedIn {v : SelectView} {b : Byte} {op : ByteOp} (h : selectByte v b = some op) :
    (op.instr b).selectedIn v = true := by
  unfold selectByte at h
  cases hp : v.phase with
  | seeking m =>
    have hm := m.isLt
    simp only [hp] at h
    split at h
    · split at h <;> cases h <;> simp [ByteOp.instr, Instr.selectedIn, *]
      omega
    · cases h
      simp [ByteOp.instr, Instr.selectedIn, *]
  | filling r =>
    simp only [hp] at h
    split at h
    · cases h
    · split at h
      · split at h <;> cases h <;> simp [ByteOp.instr, Instr.selectedIn, *]
      · cases h
        simp [ByteOp.instr, Instr.selectedIn, hp]
        omega

/-- A selection fails only in `Filling(0)`. -/
theorem selectByte_eq_none {v : SelectView} {b : Byte} : selectByte v b = none ↔ v.phase = .filling 0 := by
  unfold selectByte
  cases hp : v.phase with
  | seeking m =>
    simp only [reduceCtorEq, iff_false]
    split
    · split <;> exact Option.some_ne_none _
    · exact Option.some_ne_none _
  | filling r =>
    simp only [Phase.filling.injEq]
    split
    · simp [*]
    · split <;> simp [*]
      split <;> simp

end Sys2Proof
end

