-- ==== Sys2Proof/Laws/Memory.lean ====
section
/-! SUPPORT. The laws of the storage of `BUF`: reads after writes, the canonical form, and that it is canonical. -/

namespace Sys2Proof.Machine

@[simp] theorem Memory.read_nil (i : Nat) : Memory.read [] i = unlisted := rfl

theorem Memory.read_cons_self (i : Nat) (v : Byte) (m : Memory) (h : v = unlisted → Memory.read m i = unlisted) :
    Memory.read (Memory.cons i v m) i = v := by
  unfold Memory.cons
  split
  · rename_i hv; rw [h hv, hv]
  · simp [Memory.read]

theorem Memory.read_cons_ne {i j : Nat} (h : j ≠ i) (v : Byte) (m : Memory) :
    Memory.read (Memory.cons i v m) j = Memory.read m j := by
  unfold Memory.cons
  split
  · rfl
  · simp [Memory.read, h]

/-- A write leaves every other index alone. -/
theorem Memory.read_write_ne {i j : Nat} (h : j ≠ i) (v : Byte) (m : Memory) :
    Memory.read (Memory.write m i v) j = Memory.read m j := by
  induction m with
  | nil => simp [Memory.write, Memory.read_cons_ne h]
  | cons c rest ih =>
    obtain ⟨a, w⟩ := c
    simp only [Memory.write]
    split
    · exact Memory.read_cons_ne h v _
    · split
      · rename_i hia
        subst hia
        rw [Memory.read_cons_ne h]
        simp [Memory.read, h]
      · simp only [Memory.read, ih]

/-- An index below every cell reads as unlisted. -/
theorem Memory.read_below {lo hi i : Nat} {m : Memory} (h : Memory.wfFrom lo hi m = true) (hi' : i < lo) :
    Memory.read m i = unlisted := by
  induction m generalizing lo with
  | nil => rfl
  | cons c rest ih =>
    obtain ⟨a, w⟩ := c
    simp only [Memory.wfFrom, Bool.and_eq_true, decide_eq_true_eq] at h
    have hne : i ≠ a := by omega
    simp only [Memory.read, hne, if_false]
    exact ih h.2 (by omega)

/-- An index past the end of `BUF` is never listed. -/
theorem Memory.read_above {lo hi i : Nat} {m : Memory} (h : Memory.wfFrom lo hi m = true) (hi' : hi ≤ i) :
    Memory.read m i = unlisted := by
  induction m generalizing lo with
  | nil => rfl
  | cons c rest ih =>
    obtain ⟨a, w⟩ := c
    simp only [Memory.wfFrom, Bool.and_eq_true, decide_eq_true_eq] at h
    have hne : i ≠ a := by omega
    simp only [Memory.read, hne, if_false]
    exact ih h.2

/-- A read of the written index gives the value written. -/
theorem Memory.read_write_self {lo hi : Nat} {m : Memory} (h : Memory.wfFrom lo hi m = true) (i : Nat) (v : Byte) :
    Memory.read (Memory.write m i v) i = v := by
  induction m generalizing lo with
  | nil => exact Memory.read_cons_self i v [] (fun _ => rfl)
  | cons c rest ih =>
    obtain ⟨a, w⟩ := c
    have h' := h
    simp only [Memory.wfFrom, Bool.and_eq_true, decide_eq_true_eq] at h
    simp only [Memory.write]
    split
    · rename_i hlt
      refine Memory.read_cons_self i v _ (fun _ => ?_)
      have hne : i ≠ a := by omega
      simp only [Memory.read, hne, if_false]
      exact Memory.read_below h.2 (by omega)
    · split
      · rename_i hia
        refine Memory.read_cons_self i v _ (fun _ => ?_)
        exact Memory.read_below h.2 (by omega)
      · rename_i hne
        simp only [Memory.read, hne, if_false]
        exact ih h.2

/-- Reads after a write, in one equation. -/
theorem Memory.read_write {n : Nat} {m : Memory} (h : m.wf n = true) (i j : Nat) (v : Byte) :
    Memory.read (Memory.write m i v) j = if j = i then v else Memory.read m j := by
  split
  · rename_i hji
    subst hji
    exact Memory.read_write_self h j v
  · rename_i hji
    exact Memory.read_write_ne hji v m

theorem Memory.wfFrom_mono {lo lo' hi : Nat} {m : Memory} (h : Memory.wfFrom lo hi m = true) (hl : lo' ≤ lo) :
    Memory.wfFrom lo' hi m = true := by
  cases m with
  | nil => rfl
  | cons c rest =>
    obtain ⟨a, w⟩ := c
    simp only [Memory.wfFrom, Bool.and_eq_true, decide_eq_true_eq] at h ⊢
    exact ⟨⟨⟨by omega, h.1.1.2⟩, h.1.2⟩, h.2⟩

theorem Memory.wfFrom_cons {lo hi i : Nat} {v : Byte} {m : Memory} (h : Memory.wfFrom (i + 1) hi m = true)
    (hlo : lo ≤ i) (hhi : i < hi) : Memory.wfFrom lo hi (Memory.cons i v m) = true := by
  unfold Memory.cons
  split
  · exact Memory.wfFrom_mono h (by omega)
  · rename_i hv
    simp only [Memory.wfFrom, Bool.and_eq_true, decide_eq_true_eq]
    exact ⟨⟨⟨hlo, hhi⟩, hv⟩, h⟩

theorem Memory.wfFrom_write {lo hi i : Nat} {m : Memory} (h : Memory.wfFrom lo hi m = true) (hlo : lo ≤ i)
    (hhi : i < hi) (v : Byte) : Memory.wfFrom lo hi (Memory.write m i v) = true := by
  induction m generalizing lo with
  | nil => exact Memory.wfFrom_cons rfl hlo hhi
  | cons c rest ih =>
    obtain ⟨a, w⟩ := c
    simp only [Memory.wfFrom, Bool.and_eq_true, decide_eq_true_eq] at h
    simp only [Memory.write]
    split
    · refine Memory.wfFrom_cons ?_ hlo hhi
      simp only [Memory.wfFrom, Bool.and_eq_true, decide_eq_true_eq]
      exact ⟨⟨⟨by omega, h.1.1.2⟩, h.1.2⟩, h.2⟩
    · split
      · rename_i hia
        exact Memory.wfFrom_cons (by rw [hia]; exact h.2) hlo hhi
      · simp only [Memory.wfFrom, Bool.and_eq_true, decide_eq_true_eq]
        exact ⟨h.1, ih h.2 (by omega)⟩

/-- A write inside `BUF` keeps the canonical form. -/
theorem Memory.wf_write {n i : Nat} {m : Memory} (h : m.wf n = true) (hi : i < n) (v : Byte) :
    (Memory.write m i v).wf n = true :=
  Memory.wfFrom_write h (Nat.zero_le i) hi v

/-- The form is canonical: buffers that read alike at every index are equal. -/
theorem Memory.ext_read {lo hi : Nat} {m m' : Memory} (h : Memory.wfFrom lo hi m = true)
    (h' : Memory.wfFrom lo hi m' = true) (hr : ∀ i, Memory.read m i = Memory.read m' i) : m = m' := by
  induction m generalizing lo m' with
  | nil =>
    cases m' with
    | nil => rfl
    | cons c rest =>
      obtain ⟨a, w⟩ := c
      simp only [Memory.wfFrom, Bool.and_eq_true, decide_eq_true_eq] at h'
      exact absurd (by simpa [Memory.read] using (hr a).symm) h'.1.2
  | cons c rest ih =>
    obtain ⟨a, w⟩ := c
    have hm := h
    simp only [Memory.wfFrom, Bool.and_eq_true, decide_eq_true_eq] at h
    cases m' with
    | nil => exact absurd (by simpa [Memory.read] using hr a) h.1.2
    | cons c' rest' =>
      obtain ⟨a', w'⟩ := c'
      have hm' := h'
      simp only [Memory.wfFrom, Bool.and_eq_true, decide_eq_true_eq] at h'
      have haa : a = a' := by
        rcases Nat.lt_trichotomy a a' with hlt | heq | hgt
        · have h1 := hr a
          have h2 : Memory.read ((a', w') :: rest') a = unlisted := by
            have hne : a ≠ a' := by omega
            simp only [Memory.read, hne, if_false]
            exact Memory.read_below h'.2 (by omega)
          rw [h2] at h1
          exact absurd (by simpa [Memory.read] using h1) h.1.2
        · exact heq
        · have h1 := hr a'
          have h2 : Memory.read ((a, w) :: rest) a' = unlisted := by
            have hne : a' ≠ a := by omega
            simp only [Memory.read, hne, if_false]
            exact Memory.read_below h.2 (by omega)
          rw [h2] at h1
          exact absurd (by simpa [Memory.read] using h1.symm) h'.1.2
      subst haa
      have hww : w = w' := by simpa [Memory.read] using hr a
      subst hww
      congr 1
      refine ih h.2 h'.2 (fun i => ?_)
      by_cases hia : i = a
      · subst hia
        rw [Memory.read_below h.2 (by omega), Memory.read_below h'.2 (by omega)]
      · simpa [Memory.read, hia] using hr i

/-- The copy of `BUF` has `n` bytes. -/
@[simp] theorem Memory.length_snapshot (n : Nat) (m : Memory) : (m.snapshot n).length = n := by
  simp [Memory.snapshot]

/-- The copy of `BUF`, byte by byte. -/
theorem Memory.getElem?_snapshot {n j : Nat} (m : Memory) (h : j < n) :
    (m.snapshot n)[j]? = some (Memory.read m j) := by
  simp [Memory.snapshot, h]

end Sys2Proof.Machine
end

