-- ==== Sys2Proof/Laws/State.lean ====
section
/-! SUPPORT. One lemma per field per update of State, and the fields of a new instance, so that no proof unfolds a
record update. -/

namespace Sys2Proof.Machine

@[simp] theorem State.setPhase_cfg (s : State) (p : Phase) : (s.setPhase p).cfg = s.cfg := rfl
@[simp] theorem State.setPhase_phase (s : State) (p : Phase) : (s.setPhase p).phase = p := rfl
@[simp] theorem State.setPhase_buf (s : State) (p : Phase) : (s.setPhase p).buf = s.buf := rfl
@[simp] theorem State.setPhase_pos (s : State) (p : Phase) : (s.setPhase p).pos = s.pos := rfl
@[simp] theorem State.setPhase_out (s : State) (p : Phase) : (s.setPhase p).out = s.out := rfl
@[simp] theorem State.setPhase_input (s : State) (p : Phase) : (s.setPhase p).input = s.input := rfl
@[simp] theorem State.setPhase_n (s : State) (p : Phase) : (s.setPhase p).n = s.n := by
  simp only [State.n, State.setPhase_cfg]

@[simp] theorem State.clearOut_cfg (s : State) : (s.clearOut).cfg = s.cfg := rfl
@[simp] theorem State.clearOut_phase (s : State) : (s.clearOut).phase = s.phase := rfl
@[simp] theorem State.clearOut_buf (s : State) : (s.clearOut).buf = s.buf := rfl
@[simp] theorem State.clearOut_pos (s : State) : (s.clearOut).pos = s.pos := rfl
@[simp] theorem State.clearOut_out (s : State) : (s.clearOut).out = Outputs.none := rfl
@[simp] theorem State.clearOut_input (s : State) : (s.clearOut).input = s.input := rfl
@[simp] theorem State.clearOut_n (s : State) : (s.clearOut).n = s.n := by
  simp only [State.n, State.clearOut_cfg]

@[simp] theorem State.emit_cfg (s : State) (e : Event) : (s.emit e).cfg = s.cfg := rfl
@[simp] theorem State.emit_phase (s : State) (e : Event) : (s.emit e).phase = s.phase := rfl
@[simp] theorem State.emit_buf (s : State) (e : Event) : (s.emit e).buf = s.buf := rfl
@[simp] theorem State.emit_pos (s : State) (e : Event) : (s.emit e).pos = s.pos := rfl
@[simp] theorem State.emit_out (s : State) (e : Event) : (s.emit e).out = { s.out with events := s.out.events ++ [e] } := rfl
@[simp] theorem State.emit_input (s : State) (e : Event) : (s.emit e).input = s.input := rfl
@[simp] theorem State.emit_n (s : State) (e : Event) : (s.emit e).n = s.n := by
  simp only [State.n, State.emit_cfg]

@[simp] theorem State.diag_cfg (s : State) (d : Diag) : (s.diag d).cfg = s.cfg := rfl
@[simp] theorem State.diag_phase (s : State) (d : Diag) : (s.diag d).phase = s.phase := rfl
@[simp] theorem State.diag_buf (s : State) (d : Diag) : (s.diag d).buf = s.buf := rfl
@[simp] theorem State.diag_pos (s : State) (d : Diag) : (s.diag d).pos = s.pos := rfl
@[simp] theorem State.diag_out (s : State) (d : Diag) : (s.diag d).out = { s.out with diags := s.out.diags ++ [d] } := rfl
@[simp] theorem State.diag_input (s : State) (d : Diag) : (s.diag d).input = s.input := rfl
@[simp] theorem State.diag_n (s : State) (d : Diag) : (s.diag d).n = s.n := by
  simp only [State.n, State.diag_cfg]

@[simp] theorem State.countByte_cfg (s : State) : (s.countByte).cfg = s.cfg := rfl
@[simp] theorem State.countByte_phase (s : State) : (s.countByte).phase = s.phase := rfl
@[simp] theorem State.countByte_buf (s : State) : (s.countByte).buf = s.buf := rfl
@[simp] theorem State.countByte_pos (s : State) : (s.countByte).pos = s.pos + 1 := rfl
@[simp] theorem State.countByte_out (s : State) : (s.countByte).out = s.out := rfl
@[simp] theorem State.countByte_input (s : State) : (s.countByte).input = s.input := rfl
@[simp] theorem State.countByte_n (s : State) : (s.countByte).n = s.n := by
  simp only [State.n, State.countByte_cfg]

@[simp] theorem State.resync_cfg (s : State) : (s.resync).cfg = s.cfg := rfl
@[simp] theorem State.resync_phase (s : State) : (s.resync).phase = .seeking 0 := rfl
@[simp] theorem State.resync_buf (s : State) : (s.resync).buf = s.buf := rfl
@[simp] theorem State.resync_pos (s : State) : (s.resync).pos = s.pos := rfl
@[simp] theorem State.resync_out (s : State) : (s.resync).out = s.out := rfl
@[simp] theorem State.resync_input (s : State) : (s.resync).input = s.input := rfl
@[simp] theorem State.resync_n (s : State) : (s.resync).n = s.n := by
  simp only [State.n, State.resync_cfg]

@[simp] theorem State.prependOut_cfg (o : Outputs) (s : State) : (s.prependOut o).cfg = s.cfg := rfl
@[simp] theorem State.prependOut_phase (o : Outputs) (s : State) : (s.prependOut o).phase = s.phase := rfl
@[simp] theorem State.prependOut_buf (o : Outputs) (s : State) : (s.prependOut o).buf = s.buf := rfl
@[simp] theorem State.prependOut_pos (o : Outputs) (s : State) : (s.prependOut o).pos = s.pos := rfl
@[simp] theorem State.prependOut_out (o : Outputs) (s : State) : (s.prependOut o).out = o.append s.out := rfl
@[simp] theorem State.prependOut_input (o : Outputs) (s : State) : (s.prependOut o).input = s.input := rfl
@[simp] theorem State.prependOut_n (o : Outputs) (s : State) : (s.prependOut o).n = s.n := by
  simp only [State.n, State.prependOut_cfg]

@[simp] theorem State.popInput_cfg (s : State) : (s.popInput).cfg = s.cfg := rfl
@[simp] theorem State.popInput_phase (s : State) : (s.popInput).phase = s.phase := rfl
@[simp] theorem State.popInput_buf (s : State) : (s.popInput).buf = s.buf := rfl
@[simp] theorem State.popInput_pos (s : State) : (s.popInput).pos = s.pos := rfl
@[simp] theorem State.popInput_out (s : State) : (s.popInput).out = s.out := rfl
@[simp] theorem State.popInput_input (s : State) : (s.popInput).input = s.input.tail := rfl
@[simp] theorem State.popInput_n (s : State) : (s.popInput).n = s.n := by
  simp only [State.n, State.popInput_cfg]

@[simp] theorem State.withStrict_cfg (v : Bool) (s : State) : (s.withStrict v).cfg = { s.cfg with strict := v } := rfl
@[simp] theorem State.withStrict_phase (v : Bool) (s : State) : (s.withStrict v).phase = s.phase := rfl
@[simp] theorem State.withStrict_buf (v : Bool) (s : State) : (s.withStrict v).buf = s.buf := rfl
@[simp] theorem State.withStrict_pos (v : Bool) (s : State) : (s.withStrict v).pos = s.pos := rfl
@[simp] theorem State.withStrict_out (v : Bool) (s : State) : (s.withStrict v).out = s.out := rfl
@[simp] theorem State.withStrict_input (v : Bool) (s : State) : (s.withStrict v).input = s.input := rfl

@[simp] theorem State.withStrict_n (v : Bool) (s : State) : (s.withStrict v).n = s.n := by
  simp only [State.n, Cfg.n, State.withStrict_cfg]

@[simp] theorem State.initial_cfg (c : Cfg) : (State.initial c).cfg = c := rfl
@[simp] theorem State.initial_phase (c : Cfg) : (State.initial c).phase = .seeking 0 := rfl
@[simp] theorem State.initial_buf (c : Cfg) : (State.initial c).buf = [] := rfl
@[simp] theorem State.initial_pos (c : Cfg) : (State.initial c).pos = 0 := rfl
@[simp] theorem State.initial_out (c : Cfg) : (State.initial c).out = Outputs.none := rfl
@[simp] theorem State.initial_input (c : Cfg) : (State.initial c).input = [] := rfl
@[simp] theorem State.initial_n (c : Cfg) : (State.initial c).n = c.n := rfl

@[simp] theorem Outputs.none_events : Outputs.none.events = [] := rfl
@[simp] theorem Outputs.none_diags : Outputs.none.diags = [] := rfl
@[simp] theorem Outputs.none_decoded : Outputs.none.decoded = Option.none := rfl
@[simp] theorem Outputs.append_events (a b : Outputs) : (a.append b).events = a.events ++ b.events := rfl
@[simp] theorem Outputs.append_diags (a b : Outputs) : (a.append b).diags = a.diags ++ b.diags := rfl
@[simp] theorem Outputs.append_decoded (a b : Outputs) : (a.append b).decoded = b.decoded := rfl

@[simp] theorem State.view_phase (s : State) : s.view.phase = s.phase := rfl
@[simp] theorem State.view_headerOk (s : State) :
    s.view.headerOk = decide (headerValue s.buf = s.cfg.magic) := rfl
theorem State.view_expected (s : State) (m : Fin 4) (h : s.phase = .seeking m) :
    s.view.expected = hdr s.cfg.magic m.val := by
  simp [State.view, expectedByte, h]

end Sys2Proof.Machine
end

