-- ==== Sys2Proof/Laws/Ops.lean ====
section
/-! SUPPORT. What each shared operation can do, said once. -/

namespace Sys2Proof.Machine

@[simp] theorem andThen_next (s : State) (f : State → StepResult) : andThen (.next s) f = f s := rfl
@[simp] theorem andThen_fault (r : Fault) (f : State → StepResult) : andThen (.fault r) f = .fault r := rfl
@[simp] theorem andThen_refused (r : Refusal) (f : State → StepResult) : andThen (.refused r) f = .refused r := rfl

/-- A chain answers a next state exactly when both halves do. -/
theorem andThen_eq_next {o : StepResult} {f : State → StepResult} {t : State} :
    andThen o f = .next t ↔ ∃ s, o = .next s ∧ f s = .next t := by
  cases o <;> simp

/-- An admitted configuration never stops an operation. -/
theorem onInstance_admitted {s : State} (h : s.cfg.Admitted) (k : StepResult) : onInstance s k = k := by
  simp only [onInstance, show s.cfg.configError = none from h]

/-- An operation on an instance answers a next state only when the configuration is admitted. -/
theorem onInstance_eq_next {s t : State} {k : StepResult} :
    onInstance s k = .next t ↔ s.cfg.Admitted ∧ k = .next t := by
  unfold onInstance
  split
  · rename_i e he
    simp [Cfg.Admitted, he]
  · rename_i he
    simp [Cfg.Admitted, he]

/-- A `BYTE` operation answers a next state only when its state condition holds. -/
theorem runByteOp_eq_next {i : Instr} {s t : State} {body : State → StepResult} :
    runByteOp i s body = .next t ↔
      s.cfg.Admitted ∧ i.selectedIn s.view = true ∧ body s.clearOut.countByte = .next t := by
  unfold runByteOp
  rw [onInstance_eq_next]
  by_cases h : i.selectedIn s.view = true <;> simp [h]

/-- An admitted frame size is at least 5 (R9). -/
theorem Cfg.five_le_of_admitted {c : Cfg} (h : c.Admitted) : 5 ≤ c.n := by
  unfold Cfg.Admitted Cfg.configError at h
  split at h
  · simp at h
  · unfold Cfg.n
    omega

/-- An admitted frame size as an integer. -/
theorem Cfg.n_eq_of_admitted {c : Cfg} (h : c.Admitted) : (c.n : Int) = c.frameSize := by
  have h5 := Cfg.five_le_of_admitted h
  unfold Cfg.n at *
  omega

/-- Everything a store can do: it writes the byte at the write pointer, which lies inside `BUF`. -/
theorem storeByte_eq_next {b : Byte} {s t : State} :
    storeByte b s = .next t ↔
      ∃ i, s.writeIndex = some i ∧ i < s.n ∧ t = { s with buf := s.buf.write i b } := by
  unfold storeByte
  split
  · rename_i i hi
    by_cases h : i < s.n
    · simp [hi, h, eq_comm]
    · simp [hi, h]
  · rename_i hi
    simp [hi]

/-- In a sound state the write pointer lies inside `BUF`. -/
theorem State.writeIndex_of_sound {s : State} (h : s.Sound) :
    ∃ i, s.writeIndex = some i ∧ i < s.n := by
  have h5 : 5 ≤ s.n := Cfg.five_le_of_admitted h.admitted
  have hp := h.phaseLegal
  unfold State.writeIndex
  cases hph : s.phase with
  | seeking m => exact ⟨m.val, rfl, by have := m.isLt; omega⟩
  | filling r =>
    simp only [hph, Phase.legal, Bool.and_eq_true, decide_eq_true_eq] at hp
    exact ⟨s.n - r, by simp [hp.2], by omega⟩

/-- A store inside `BUF` keeps the canonical form. -/
theorem storeByte_keeps_wf {b : Byte} {s t : State} (h : storeByte b s = .next t) (hw : s.buf.wf s.n = true) :
    t.buf.wf t.n = true := by
  obtain ⟨i, -, hi, rfl⟩ := storeByte_eq_next.mp h
  exact Memory.wf_write hw hi b

/-- Every operation of `BUF` keeps the canonical form; a new instance has it. -/
theorem State.initial_bufWf (c : Cfg) : (State.initial c).buf.wf (State.initial c).n = true := rfl

theorem State.reset_bufWf : State.reset.buf.wf State.reset.n = true := State.initial_bufWf _

end Sys2Proof.Machine
end

