-- ==== Sys2Proof/Laws/PerInstr.lean ====
section
/-! SUPPORT. A family of statements about every constructor of Instr: the step words of an operation match its row's
`match` and `mask` in spec/opcode_table.json. -/

namespace Sys2Proof.Laws.TableMatch

/-- The `(mask, match)` of an operation's row; `none` for `DECODE`, whose row has a port of its own. -/
def row : Instr → Option (StepWord × StepWord)
  | .reset => some (0x200#10, 0x200#10)
  | .idle => some (0x300#10, 0x000#10)
  | .seekMatch _ => some (0x300#10, 0x100#10)
  | .seekAccept _ => some (0x300#10, 0x100#10)
  | .seekMismatch _ => some (0x300#10, 0x100#10)
  | .fill _ => some (0x300#10, 0x100#10)
  | .fillReady _ => some (0x300#10, 0x100#10)
  | .fillReject _ => some (0x300#10, 0x100#10)
  | .decode _ => none
  | .chunk _ => some (0x300#10, 0x100#10)

/-- A word has the fixed bits of a row. -/
def fits (row : Option (StepWord × StepWord)) (w : StepWord) : Bool :=
  match row with
  | none => false
  | some (mask, value) => (w &&& mask) == value

/-- Every step word of the operation has the fixed bits of its row. -/
def Statement (i : Instr) : Prop := ∀ w, w ∈ i.stepWords → fits (row i) w = true

theorem byteWord_fits : ∀ b : Byte, (byteWord b &&& 0x300#10) = 0x100#10 := by decide

theorem reset : Statement .reset := by simp [Statement, Instr.stepWords, row, fits, resetWord]

theorem idle : Statement .idle := by simp [Statement, Instr.stepWords, row, fits, idleWord]

theorem seekMatch (b : Byte) : Statement (.seekMatch b) := by
  simp [Statement, Instr.stepWords, row, fits, byteWord_fits]

theorem seekAccept (b : Byte) : Statement (.seekAccept b) := by
  simp [Statement, Instr.stepWords, row, fits, byteWord_fits]

theorem seekMismatch (b : Byte) : Statement (.seekMismatch b) := by
  simp [Statement, Instr.stepWords, row, fits, byteWord_fits]

theorem fill (b : Byte) : Statement (.fill b) := by
  simp [Statement, Instr.stepWords, row, fits, byteWord_fits]

theorem fillReady (b : Byte) : Statement (.fillReady b) := by
  simp [Statement, Instr.stepWords, row, fits, byteWord_fits]

theorem fillReject (b : Byte) : Statement (.fillReject b) := by
  simp [Statement, Instr.stepWords, row, fits, byteWord_fits]

theorem decode (frame : List Byte) : Statement (.decode frame) := by
  simp [Statement, Instr.stepWords]

theorem chunk (bytes : List Byte) : Statement (.chunk bytes) := by
  simp [Statement, Instr.stepWords, row, fits, byteWord_fits]

end Sys2Proof.Laws.TableMatch
end

