-- ==== Sys2Proof/Laws/Step.lean ====
section
/-! SUPPORT. What a step can do, said once: inversion lemmas of every meaning, of a `BYTE` step, of `ingest` and of
`step`. -/

namespace Sys2Proof.Machine

/-- If IDLE answers, it only emptied the outputs. -/
theorem execIdle_next {s t : State} (h : execIdle s = .next t) :
    s.cfg.Admitted ∧ t = { s with out := Outputs.none } := by
  obtain ⟨ha, ht⟩ := onInstance_eq_next.mp h
  cases ht
  exact ⟨ha, rfl⟩

/-- If RESET answers, it is a new instance with the same configuration and input. -/
theorem execReset_next {s t : State} (h : execReset s = .next t) :
    s.cfg.Admitted ∧ t = { State.initial s.cfg with input := s.input } := by
  obtain ⟨ha, ht⟩ := onInstance_eq_next.mp h
  cases ht
  exact ⟨ha, rfl⟩

/-- If DECODE answers, only the outputs changed. -/
theorem execDecode_next {frame : List Byte} {s t : State} (h : execDecode frame s = .next t) :
    s.cfg.Admitted ∧
      t = { s with out := { Outputs.none with decoded := some (decodeFrame s.cfg.layout frame) } } := by
  obtain ⟨ha, ht⟩ := onInstance_eq_next.mp h
  cases ht
  exact ⟨ha, rfl⟩

/-- If SEEK_MATCH answers, everything it did. -/
theorem execSeekMatch_next {b : Byte} {s t : State} (h : execSeekMatch b s = .next t) :
    s.cfg.Admitted ∧ ∃ m : Fin 4, s.phase = .seeking m ∧ m.val < 3 ∧ b = hdr s.cfg.magic m.val ∧ m.val < s.n ∧
      t = { s with phase := .seeking (m + 1), buf := s.buf.write m.val b, pos := s.pos + 1, out := Outputs.none } := by
  obtain ⟨ha, hsel, hrun⟩ := runByteOp_eq_next.mp h
  obtain ⟨u, hu, hrun⟩ := andThen_eq_next.mp hrun
  obtain ⟨i, hi, hin, rfl⟩ := storeByte_eq_next.mp hu
  cases hp : s.phase with
  | filling r => simp [Instr.selectedIn, hp] at hsel
  | seeking m =>
    simp only [Instr.selectedIn, State.view_phase, hp, State.view_expected s m hp, Bool.and_eq_true,
      decide_eq_true_eq] at hsel
    simp only [State.writeIndex, State.countByte_phase, State.clearOut_phase, hp, Option.some.injEq] at hi
    simp only [State.countByte_phase, State.clearOut_phase, hp] at hrun
    cases hrun
    subst hi
    exact ⟨ha, m, rfl, hsel.1, hsel.2, hin, rfl⟩

/-- If SEEK_ACCEPT answers, everything it did. -/
theorem execSeekAccept_next {b : Byte} {s t : State} (h : execSeekAccept b s = .next t) :
    s.cfg.Admitted ∧ s.phase = .seeking 3 ∧ b = hdr s.cfg.magic 3 ∧
      t = { s with phase := .filling (s.n - 4), buf := s.buf.write 3 b, pos := s.pos + 1, out := Outputs.none } := by
  obtain ⟨ha, hsel, hrun⟩ := runByteOp_eq_next.mp h
  obtain ⟨u, hu, hrun⟩ := andThen_eq_next.mp hrun
  obtain ⟨i, hi, -, rfl⟩ := storeByte_eq_next.mp hu
  cases hp : s.phase with
  | filling r => simp [Instr.selectedIn, hp] at hsel
  | seeking m =>
    simp only [Instr.selectedIn, State.view_phase, hp, State.view_expected s m hp, Bool.and_eq_true,
      decide_eq_true_eq] at hsel
    obtain ⟨hm, hb⟩ := hsel
    have hm3 : m = 3 := Fin.ext hm
    subst hm3
    simp only [State.writeIndex, State.countByte_phase, State.clearOut_phase, hp, Option.some.injEq] at hi
    cases hrun
    subst hi
    exact ⟨ha, rfl, hb, rfl⟩

/-- If SEEK_MISMATCH answers, everything it did. -/
theorem execSeekMismatch_next {b : Byte} {s t : State} (h : execSeekMismatch b s = .next t) :
    s.cfg.Admitted ∧ ∃ m : Fin 4, s.phase = .seeking m ∧ b ≠ hdr s.cfg.magic m.val ∧
      t = { s with phase := .seeking 0, pos := s.pos + 1,
                   out := { events := [], diags := [.headerMismatch m], decoded := none } } := by
  obtain ⟨ha, hsel, hrun⟩ := runByteOp_eq_next.mp h
  cases hp : s.phase with
  | filling r => simp [Instr.selectedIn, hp] at hsel
  | seeking m =>
    simp only [Instr.selectedIn, State.view_phase, hp, State.view_expected s m hp, decide_eq_true_eq] at hsel
    simp only [State.countByte_phase, State.clearOut_phase, hp] at hrun
    cases hrun
    exact ⟨ha, m, rfl, hsel, rfl⟩

/-- The write pointer while filling. -/
theorem writeIndex_filling {s : State} {r i : Nat} (hp : s.phase = .filling r) (hi : s.writeIndex = some i) :
    r ≤ s.n ∧ i = s.n - r := by
  simp only [State.writeIndex, hp] at hi
  by_cases hr : r ≤ s.n
  · rw [if_pos hr] at hi
    cases hi
    exact ⟨hr, rfl⟩
  · rw [if_neg hr] at hi
    cases hi

/-- If FILL answers, everything it did. -/
theorem execFill_next {b : Byte} {s t : State} (h : execFill b s = .next t) :
    s.cfg.Admitted ∧ ∃ r, s.phase = .filling r ∧ 2 ≤ r ∧ r ≤ s.n ∧
      t = { s with phase := .filling (r - 1), buf := s.buf.write (s.n - r) b, pos := s.pos + 1,
                   out := Outputs.none } := by
  obtain ⟨ha, hsel, hrun⟩ := runByteOp_eq_next.mp h
  obtain ⟨u, hu, hrun⟩ := andThen_eq_next.mp hrun
  obtain ⟨i, hi, -, rfl⟩ := storeByte_eq_next.mp hu
  cases hp : s.phase with
  | seeking m => simp [Instr.selectedIn, hp] at hsel
  | filling r =>
    simp only [Instr.selectedIn, State.view_phase, hp, decide_eq_true_eq] at hsel
    obtain ⟨hr, rfl⟩ := writeIndex_filling (s := s.clearOut.countByte) hp hi
    simp only [State.countByte_phase, State.clearOut_phase, hp] at hrun
    cases hrun
    exact ⟨ha, r, rfl, hsel, hr, rfl⟩

/-- If FILL_READY answers, everything it did. -/
theorem execFillReady_next {b : Byte} {s t : State} (h : execFillReady b s = .next t) :
    s.cfg.Admitted ∧ s.phase = .filling 1 ∧ headerValue s.buf = s.cfg.magic ∧
      t = { s with phase := rearmPhase s.cfg, buf := s.buf.write (s.n - 1) b, pos := s.pos + 1,
                   out := { events := [.frameReady ((s.buf.write (s.n - 1) b).snapshot s.n)], diags := [],
                            decoded := none } } := by
  obtain ⟨ha, hsel, hrun⟩ := runByteOp_eq_next.mp h
  obtain ⟨u, hu, hrun⟩ := andThen_eq_next.mp hrun
  obtain ⟨i, hi, -, rfl⟩ := storeByte_eq_next.mp hu
  cases hp : s.phase with
  | seeking m => simp [Instr.selectedIn, hp] at hsel
  | filling r =>
    simp only [Instr.selectedIn, State.view_phase, hp, State.view_headerOk, Bool.and_eq_true,
      decide_eq_true_eq] at hsel
    obtain ⟨hr, hh⟩ := hsel
    subst hr
    obtain ⟨-, rfl⟩ := writeIndex_filling (s := s.clearOut.countByte) hp hi
    cases hrun
    exact ⟨ha, rfl, hh, rfl⟩

/-- If FILL_REJECT answers, everything it did. -/
theorem execFillReject_next {b : Byte} {s t : State} (h : execFillReject b s = .next t) :
    s.cfg.Admitted ∧ s.phase = .filling 1 ∧ headerValue s.buf ≠ s.cfg.magic ∧
      t = { s with phase := .seeking 0, buf := s.buf.write (s.n - 1) b, pos := s.pos + 1,
                   out := { events := [.frameRejected .badHeader], diags := [], decoded := none } } := by
  obtain ⟨ha, hsel, hrun⟩ := runByteOp_eq_next.mp h
  obtain ⟨u, hu, hrun⟩ := andThen_eq_next.mp hrun
  obtain ⟨i, hi, -, rfl⟩ := storeByte_eq_next.mp hu
  cases hp : s.phase with
  | seeking m => simp [Instr.selectedIn, hp] at hsel
  | filling r =>
    simp only [Instr.selectedIn, State.view_phase, hp, State.view_headerOk, Bool.and_eq_true, Bool.not_eq_true',
      decide_eq_true_eq, decide_eq_false_iff_not] at hsel
    obtain ⟨hr, hh⟩ := hsel
    subst hr
    obtain ⟨-, rfl⟩ := writeIndex_filling (s := s.clearOut.countByte) hp hi
    cases hrun
    exact ⟨ha, rfl, hh, rfl⟩

/-- The meaning of a selected `BYTE` operation is `exec` of it. -/
theorem runSelected_eq_exec (op : ByteOp) (b : Byte) (s : State) : runSelected op b s = exec (op.instr b) s := by
  cases op <;> rfl

/-- A `BYTE` step is `exec` of the selected operation. -/
theorem byteStep_eq_exec {b : Byte} {s : State} {op : ByteOp} (h : selectByte s.view b = some op) :
    byteStep b s = exec (op.instr b) s := by
  rw [byteStep, h]
  exact runSelected_eq_exec op b s

/-- If a `BYTE` step answers, an operation was selected and answered. -/
theorem byteStep_next {b : Byte} {s t : State} (h : byteStep b s = .next t) :
    ∃ op, selectByte s.view b = some op ∧ exec (op.instr b) s = .next t := by
  cases hsel : selectByte s.view b with
  | none => simp [byteStep, hsel] at h
  | some op => exact ⟨op, rfl, byteStep_eq_exec hsel ▸ h⟩

@[simp] theorem ingest_nil (s : State) : ingest [] s = .next s.clearOut := rfl

/-- If `ingest` of a byte and a rest answers, the byte's step and the rest answered, and the outputs are joined. -/
theorem ingest_cons_next {b : Byte} {rest : List Byte} {s t : State} :
    ingest (b :: rest) s = .next t ↔
      ∃ s1 s2, byteStep b s = .next s1 ∧ ingest rest s1 = .next s2 ∧ t = s2.prependOut s1.out := by
  simp only [ingest, andThen_eq_next, Host.Outcome.next.injEq]
  constructor
  · rintro ⟨s1, h1, s2, h2, rfl⟩
    exact ⟨s1, s2, h1, h2, rfl⟩
  · rintro ⟨s1, s2, h1, h2, rfl⟩
    exact ⟨s1, h1, s2, h2, rfl⟩

/-- If CHUNK answers, its `ingest` did. -/
theorem execChunk_next {bytes : List Byte} {s t : State} :
    execChunk bytes s = .next t ↔ s.cfg.Admitted ∧ ingest bytes s = .next t := onInstance_eq_next

/-- If a step answers, its input decoded and the operation answered in the state with the input consumed. -/
theorem step_next {s t : State} (h : step s = .next t) :
    ∃ i, fetch s = .ok i ∧ exec i s.popInput = .next t := by
  cases hf : fetch s with
  | error why => simp [step, hf] at h
  | ok i => exact ⟨i, rfl, by simpa [step, hf] using h⟩

/-- The header value is the sum of its four bytes (R35). -/
theorem le_four (read : Nat → Byte) (a : Nat) :
    le read a 4 = (read a).toNat + (read (a + 1)).toNat * 2 ^ 8 + (read (a + 2)).toNat * 2 ^ 16 +
      (read (a + 3)).toNat * 2 ^ 24 := by
  simp [le]

end Sys2Proof.Machine
end

