-- ==== Sys2Proof/Tests/Slice0.lean ====
section
/-! SUPPORT. The model's own tests: ill-formed terms are refused, words written out from R50 decode to their operations,
single steps give what the tables of 95_test_vectors.md give, and every statement's hypotheses are met somewhere. -/

namespace Sys2Proof.Tests

open Sys2Proof Sys2Proof.Machine

/-! ### Small states -/

/-- `BUF` holding bytes from index `i` on. -/
def load (i : Nat) : List Byte → Memory → Memory
  | [], m => m
  | b :: bs, m => load (i + 1) bs (Memory.write m i b)

/-- An instance with the default magic, an empty layout and nothing on its ports. -/
def small (n : Int) (strict : Bool) (phase : Phase) (buf : List Byte) : State :=
  { cfg := { frameSize := n, layout := [], strict := strict }
    phase := phase, buf := load 0 buf [], pos := 0, out := Outputs.none, input := [] }

/-- The same with another magic. -/
def withMagic (magic : Word32) (s : State) : State := { s with cfg := { s.cfg with magic := magic } }

/-- The same with another layout. -/
def withLayout (layout : List LayoutEntry) (s : State) : State := { s with cfg := { s.cfg with layout := layout } }

def fe : Byte := 0xFE#8

/-- The frame of S1 (95_test_vectors.md). -/
def frameS1 : List Byte := [fe, fe, fe, fe, 0x00#8, 0x00#8, 0x06#8, 0x40#8, 0x00#8, 0x00#8, 0x00#8, 0x00#8]

/-! ### Ill-formed terms are refused (R52) -/

/-- `Seeking(3)` is no state for SEEK_MATCH, even with the right byte. -/
theorem test_wf_seekMatch :
    (Instr.seekMatch fe).selectedIn { phase := .seeking 3, expected := fe, headerOk := false } = false := by decide

theorem test_wf_seekMatch_byte :
    (Instr.seekMatch 0x00#8).selectedIn { phase := .seeking 1, expected := fe, headerOk := false } = false := by decide

theorem test_wf_seekAccept :
    (Instr.seekAccept fe).selectedIn { phase := .seeking 2, expected := fe, headerOk := false } = false := by decide

theorem test_wf_seekMismatch :
    (Instr.seekMismatch fe).selectedIn { phase := .seeking 0, expected := fe, headerOk := false } = false := by decide

theorem test_wf_fill :
    (Instr.fill fe).selectedIn { phase := .filling 1, expected := fe, headerOk := true } = false := by decide

theorem test_wf_fillReady :
    (Instr.fillReady fe).selectedIn { phase := .filling 1, expected := fe, headerOk := false } = false := by decide

theorem test_wf_fillReject :
    (Instr.fillReject fe).selectedIn { phase := .filling 1, expected := fe, headerOk := true } = false := by decide

/-- `Filling(0)` and `Filling(N + 1)` are no values of PHASE (R18). -/
theorem test_wf_phase : (Phase.filling 0).legal 12 = false ∧ (Phase.filling 13).legal 12 = false := by decide

/-- Table 2.6 of 95_test_vectors.md: each reason, and the lowest code when several hold. -/
theorem test_admission :
    (small 12 false (.seeking 0) []).cfg.configError = none ∧ (small 5 false (.seeking 0) []).cfg.configError = none ∧
    (small 4 false (.seeking 0) []).cfg.configError = some .frameSizeTooSmall ∧
    Cfg.configError { frameSize := 12, layout := [⟨4, 2, none, "s"⟩] } = some .fieldWidthUnsupported ∧
    Cfg.configError { frameSize := 12, layout := [⟨-1, 4, none, "s"⟩] } = some .fieldOffsetNegative ∧
    Cfg.configError { frameSize := 12, layout := [⟨4, 4, some 0x0#64, "s"⟩] } = some .fieldScaleInvalid ∧
    Cfg.configError { frameSize := 12, layout := [⟨4, 4, some 0x7FF8000000000000#64, "s"⟩] } =
      some .fieldScaleInvalid ∧
    Cfg.configError { frameSize := 4, layout := [⟨4, 2, none, "s"⟩] } = some .frameSizeTooSmall ∧
    Cfg.configError { frameSize := 12, layout := [⟨40, 4, none, "s"⟩] } = none := by decide

/-- The profile of R91 is admitted with a legal divisor. -/
theorem test_legacy_admitted : (Config.legacy Config.scale160).configError = none := by decide

/-- A step on a refused configuration has no behaviour (R96). -/
theorem test_refused_configuration :
    execIdle (small 4 false (.seeking 0) []) = .refused (.configRefused .frameSizeTooSmall) := by rfl

/-- An illegal phase faults by name. -/
theorem test_illegal_phase :
    byteStep fe (small 12 false (.filling 0) []) = .fault (.inputRejected .illegalPhase) ∧
    byteStep fe (small 12 false (.filling 13) []) = .fault .bufIndex := ⟨rfl, rfl⟩

/-! ### Words written out from the encodings (R50, R51, R55, R60) -/

/-- 10_0000_0000 and 11_1111_1110: RST is bit 9, the other bits do not matter. -/
theorem test_decode_reset (v : SelectView) :
    decode v (.stepWord 0b1000000000#10) = .ok .reset ∧ decode v (.stepWord 0b1111111110#10) = .ok .reset := ⟨rfl, rfl⟩

/-- 00_0000_0000 and 00_1111_1110: no RST and no VALID. -/
theorem test_decode_idle (v : SelectView) :
    decode v (.stepWord 0b0000000000#10) = .ok .idle ∧ decode v (.stepWord 0b0011111110#10) = .ok .idle := ⟨rfl, rfl⟩

/-- 01_1111_1110 in `Seeking(0)` and `Seeking(2)` of the default magic. -/
theorem test_decode_seekMatch :
    decode (small 12 false (.seeking 0) []).view (.stepWord 0b0111111110#10) = .ok (.seekMatch fe) ∧
    decode (small 12 false (.seeking 2) [fe, fe]).view (.stepWord 0b0111111110#10) = .ok (.seekMatch fe) := ⟨rfl, rfl⟩

theorem test_decode_seekAccept :
    decode (small 12 false (.seeking 3) [fe, fe, fe]).view (.stepWord 0b0111111110#10) = .ok (.seekAccept fe) := rfl

/-- 01_0100_0100 with magic 0x44332211: `HDR[0]` is the low byte 11, not 44 (table 2.2). -/
theorem test_decode_seekMismatch :
    decode (withMagic 0x44332211#32 (small 6 false (.seeking 0) [])).view (.stepWord 0b0101000100#10) =
      .ok (.seekMismatch 0x44#8) := rfl

theorem test_decode_fill :
    decode (small 12 false (.filling 2) [fe, fe, fe, fe]).view (.stepWord 0b0110101010#10) = .ok (.fill 0xAA#8) := rfl

theorem test_decode_fillReady :
    decode (small 5 false (.filling 1) [fe, fe, fe, fe]).view (.stepWord 0b0101110111#10) =
      .ok (.fillReady 0x77#8) := rfl

/-- `LE = 0x11223344` is not `0x44332211`: the byte order matters (table 2.3). -/
theorem test_decode_fillReject :
    decode (withMagic 0x44332211#32 (small 6 false (.filling 1) [0x44#8, 0x33#8, 0x22#8, 0x11#8])).view
      (.stepWord 0b0100000000#10) = .ok (.fillReject 0x00#8) := rfl

/-- DEC_FRAME: byte 0 in the low bits (R55). -/
theorem test_decode_decFrame (v : SelectView) :
    decode v (.decFrame 4 0x40060000) = .ok (.decode [0x00#8, 0x00#8, 0x06#8, 0x40#8]) := rfl

/-- `BYTE FE` is 0x1FE and `BYTE 00` is 0x100 (R60); a chunk is its bytes' words (R61). -/
theorem test_encode :
    encode (.fill fe) = .stepWord 0x1FE#10 ∧ encode .reset = .stepWord 0x200#10 ∧ encode .idle = .stepWord 0x000#10 ∧
    (Instr.chunk [0x10#8, fe]).stepWords = [0x110#10, 0x1FE#10] := by decide

/-- The view of `decodeTableWord` is that of the reset state. -/
theorem test_resetView : State.reset.view = resetView := by decide

/-! ### Single steps (tables 2.2 to 2.5 of 95_test_vectors.md) -/

theorem test_seekMatch :
    nextSatisfies (execSeekMatch fe (small 12 false (.seeking 2) [fe, fe]))
      (fun t => decide (t.PHASE = -3 ∧ t.buf.read 2 = fe ∧ t.out.events = [])) = true := by decide

/-- No retry of the mismatching `11` (R66). -/
theorem test_seekMismatch :
    nextSatisfies (execSeekMismatch 0x11#8 (withMagic 0x44332211#32 (small 6 false (.seeking 1) [0x11#8])))
      (fun t => decide (t.PHASE = 0 ∧ t.out.diags = [.headerMismatch 1])) = true := by decide

/-- The smallest frame: `N - 4 = 1`. -/
theorem test_seekAccept_smallest :
    nextSatisfies (execSeekAccept fe (small 5 false (.seeking 3) [fe, fe, fe]))
      (fun t => decide (t.PHASE = 1 ∧ t.buf.read 3 = fe)) = true := by decide

/-- A re-armed frame overwrites the header slot. -/
theorem test_fill_rearmed :
    nextSatisfies (execFill 0x00#8 (small 12 false (.filling 12) [fe, fe, fe, fe]))
      (fun t => decide (t.PHASE = 11 ∧ t.buf.read 0 = 0x00#8 ∧ t.buf.read 1 = fe)) = true := by decide

theorem test_fillReady :
    nextSatisfies (execFillReady 0x77#8 (small 5 false (.filling 1) [fe, fe, fe, fe]))
      (fun t => decide (t.PHASE = 5 ∧ t.out.events = [.frameReady [fe, fe, fe, fe, 0x77#8]])) = true := by decide

/-- Strict mode seeks next (R72). -/
theorem test_fillReady_strict :
    nextSatisfies (execFillReady 0x00#8 (small 12 true (.filling 1) [fe, fe, fe, fe]))
      (fun t => decide (t.PHASE = 0 ∧ t.out.events.length = 1)) = true := by decide

theorem test_fillReject :
    nextSatisfies (execFillReject 0x55#8 (small 12 false (.filling 1) [fe, fe, fe, 0x00#8]))
      (fun t => decide (t.PHASE = 0 ∧ t.out.events = [.frameRejected .badHeader])) = true := by decide

/-- The reset word 0x3FE wins over its byte (R51). -/
theorem test_reset_wins :
    nextSatisfies (step ((small 12 false (.seeking 3) [fe, fe, fe]).withFetchWord 16 0x3FE))
      (fun t => decide (t.PHASE = 0 ∧ t.buf.read 0 = 0x00#8 ∧ t.pos = 0)) = true := by decide

theorem test_idle :
    nextSatisfies (step ((small 12 false (.seeking 2) [fe, fe]).withFetchWord 16 0x0FE))
      (fun t => decide (t.PHASE = -2 ∧ t.pos = 0)) = true := by decide

/-- S2, second chunk: the header begun in an earlier chunk is completed. -/
theorem test_chunk :
    nextSatisfies (execChunk (frameS1.drop 2) (small 12 false (.seeking 2) [fe, fe]))
      (fun t => decide (t.PHASE = 12 ∧ t.out.events = [.frameReady frameS1] ∧ t.pos = 10)) = true := by decide

/-- S1, decoded: raw 1074135040, value 6713344.0 (C2). -/
theorem test_decode_s1 :
    decodeFrame [⟨4, 4, some Config.scale160, "v"⟩] frameS1 =
      .ok [⟨"v", 1074135040, some 0x41599C0000000000#64⟩] := by decide

/-- Table 2.5: the boundary that fits, the one that does not, and the lowest index of two. -/
theorem test_decode_errors :
    decodeFrame [⟨8, 4, none, "a"⟩] frameS1 = .ok [⟨"a", 0, none⟩] ∧
    decodeFrame [⟨9, 4, none, "a"⟩] frameS1 = .decodeError 0 ∧
    decodeFrame [⟨4, 4, none, "v"⟩, ⟨10, 4, none, "b"⟩] frameS1 = .decodeError 1 := by decide

/-- `-1 / 160.0` is the binary64 value nearest to -0.00625, `0 / -2.0` is -0.0 (table 2.5), and S3's field. -/
theorem test_div64 :
    div64 (-1) Config.scale160 = 0xBF7999999999999A#64 ∧ div64 0 0xC000000000000000#64 = 0x8000000000000000#64 ∧
    div64 (-16843010) Config.scale160 = 0xC0F9B34D00000000#64 := by decide

/-- The notation of R60, read and assembled: the first two lines of P1. -/
theorem test_stimulus :
    (parseLine ['C', 'H', 'U', 'N', 'K', ' ', '0', '0', ' ', 'F', 'E', ' ', '1', '1', ';', ' ', 'g']).map assemble =
      some [0x100#10, 0x1FE#10, 0x111#10] ∧
    parseLine ['B', 'Y', 'T', 'E', ' ', '0', 'x', 'f', 'e'] = some [.byte fe] ∧
    parseLine ['B', 'Y', 'T', 'E'] = none := by decide

/-! ### The hypotheses of every statement are met somewhere -/

def seek0 : State := small 12 false (.seeking 0) []
def seek2 : State := small 12 false (.seeking 2) [fe, fe]
def seek3 : State := small 12 false (.seeking 3) [fe, fe, fe]
def fill12 : State := small 12 false (.filling 12) [fe, fe, fe, fe]
def fill2 : State := small 12 false (.filling 2) [fe, fe, fe, fe]
def ready1 : State := small 12 false (.filling 1) [fe, fe, fe, fe]
def reject1 : State := small 12 false (.filling 1) [fe, fe, fe]
def strict1 : State := small 5 true (.filling 1) [fe, fe, fe, fe]

theorem seek0_sound : seek0.Sound := ⟨by decide, by decide, by decide⟩
theorem seek2_sound : seek2.Sound := ⟨by decide, by decide, by decide⟩
theorem seek3_sound : seek3.Sound := ⟨by decide, by decide, by decide⟩
theorem fill12_sound : fill12.Sound := ⟨by decide, by decide, by decide⟩
theorem fill2_sound : fill2.Sound := ⟨by decide, by decide, by decide⟩
theorem ready1_sound : ready1.Sound := ⟨by decide, by decide, by decide⟩
theorem reject1_sound : reject1.Sound := ⟨by decide, by decide, by decide⟩
theorem strict1_sound : strict1.Sound := ⟨by decide, by decide, by decide⟩

theorem strict1_header : strict1.HeaderPrefix 4 := by
  show ∀ i, i < 4 → strict1.buf.read i = hdr strict1.cfg.magic i
  decide

theorem seek3_header : seek3.HeaderPrefix 3 := by
  show ∀ i, i < 3 → seek3.buf.read i = hdr seek3.cfg.magic i
  decide

theorem seek2_header : seek2.HeaderPrefix 2 := by
  show ∀ i, i < 2 → seek2.buf.read i = hdr seek2.cfg.magic i
  decide

/-- A reachable state in strict mode meets the invariant; so does one that seeks. -/
theorem test_witness_Inv : strict1.Inv ∧ seek2.Inv := by
  refine ⟨⟨strict1_sound, ?_, ?_⟩, ⟨seek2_sound, ?_, ?_⟩⟩
  · intro m h
    cases h
  · intro r _ h
    cases h
    exact ⟨by decide, strict1_header⟩
  · intro m h
    cases h
    exact seek2_header
  · intro r h _
    cases h

theorem test_witness_StepWordDecode :
    0x200 ≤ (0x200#10).toNat ∧ (0x0FF#10).toNat < 0x100 ∧
    (0x1FE#10).toNat = 0x100 + fe.toNat ∧ selectByte seek3.view fe = some .seekAccept := by decide

theorem test_witness_EncodeDecodeRoundTrip :
    (Instr.seekMatch fe).selectedIn seek2.view = true ∧ (Instr.seekAccept fe).selectedIn seek3.view = true ∧
    (Instr.seekMismatch 0x00#8).selectedIn seek3.view = true ∧ (Instr.fill fe).selectedIn fill2.view = true ∧
    (Instr.fillReady fe).selectedIn ready1.view = true ∧ (Instr.fillReject fe).selectedIn reject1.view = true ∧
    Instr.reset.selectedIn ready1.view = true ∧ Instr.idle.selectedIn ready1.view = true ∧
    (Instr.decode frameS1).selectedIn ready1.view = true ∧ (Instr.chunk frameS1).selectedIn ready1.view = true := by
  decide

/-- A port value whose bits past `8L` are not zero decodes as well. -/
theorem test_witness_DecodedIsSelected :
    decode seek0.view (.stepWord 0x0AB#10) = .ok .idle ∧
    decode seek0.view (.decFrame 1 0x1FE) = .ok (.decode [fe]) := ⟨rfl, rfl⟩

theorem test_witness_ByteSelection : seek3.Sound ∧ fill2.Sound ∧ ready1.Sound ∧ reject1.Sound :=
  ⟨seek3_sound, fill2_sound, ready1_sound, reject1_sound⟩

theorem test_witness_NotSelectedStops :
    seek3.cfg.Admitted ∧ (Instr.seekMatch fe).selectedIn seek3.view = false ∧
    fill2.cfg.Admitted ∧ (Instr.fillReady fe).selectedIn fill2.view = false := by decide

theorem test_witness_StepRunsDecoded :
    ({ seek0 with input := [.stepWord 0x1FE#10] } : State).input = .stepWord 0x1FE#10 :: [] ∧
    decode seek0.view (.stepWord 0x1FE#10) = .ok (.seekMatch fe) ∧ seek0.input = [] ∧
    decode (small 12 false (.filling 0) []).view (.stepWord 0x1FE#10) = .error .illegalPhase :=
  ⟨rfl, rfl, rfl, rfl⟩

theorem test_witness_StepTotal : ({ ready1 with input := [.stepWord 0x1FE#10] } : State).Sound :=
  ⟨ready1_sound.1, ready1_sound.2, ready1_sound.3⟩

/-- A step that answers a next state, from a state that meets the invariant. -/
theorem test_witness_step_next :
    ∃ t, step { strict1 with input := [.stepWord 0x1FE#10] } = .next t ∧
      ({ strict1 with input := [.stepWord 0x1FE#10] } : State).Inv ∧ strict1.cfg.strict = true :=
  ⟨_, rfl, ⟨⟨strict1_sound.1, strict1_sound.2, strict1_sound.3⟩, test_witness_Inv.1.2, test_witness_Inv.1.3⟩, rfl⟩

theorem test_witness_OneOutputPerStep :
    (∃ t, step { reject1 with input := [.stepWord 0x1FE#10] } = .next t) ∧
    (∃ t, step { reject1 with input := [.stepWord 0x3FE#10] } = .next t) ∧ 0x200 ≤ (0x3FE#10).toNat :=
  ⟨⟨_, rfl⟩, ⟨_, rfl⟩, by decide⟩

theorem test_witness_StalledTransport : seek2.cfg.Admitted ∧ seek2.input = [] := ⟨by decide, rfl⟩

/-- The ends of the range `[-3, N]`. -/
theorem test_witness_PhaseTagBijection :
    (Phase.seeking 3).legal 12 = true ∧ (Phase.filling 1).legal 12 = true ∧ (Phase.filling 12).legal 12 = true ∧
    phaseValue (.seeking 3) = -3 ∧ phaseValue (.filling 12) = 12 := by decide

/-- The smallest frame, and sizes on both sides of a power of two. -/
theorem test_witness_PhaseRegisterWidth :
    5 ≤ 5 ∧ phaseWidth 5 = 4 ∧ phaseWidth 7 = 4 ∧ phaseWidth 8 = 5 ∧ (Phase.filling 5).legal 5 = true ∧
    -(2 : Int) ^ (4 - 1) ≤ -4 ∧ (5 : Int) < 2 ^ (4 - 1) := by decide

theorem test_witness_DerivedSignals :
    seek3.phase = .seeking 3 ∧ ready1.phase = .filling 1 ∧ fill12.phase = .filling 12 := by decide

theorem test_witness_WriteInBounds :
    seek3.Sound ∧ seek3.PHASE ≤ 0 ∧ fill12.Sound ∧ 0 < fill12.PHASE ∧ ready1.Sound ∧ 0 < ready1.PHASE :=
  ⟨seek3_sound, by decide, fill12_sound, by decide, ready1_sound, by decide⟩

/-- Two states that differ in a stale byte only. -/
theorem test_witness_StaleBytesUnobservable :
    seek0.Sound ∧ (small 12 false (.seeking 0) [0x77#8]).Sound ∧
    seek0.cfg = (small 12 false (.seeking 0) [0x77#8]).cfg ∧
    seek0.phase = (small 12 false (.seeking 0) [0x77#8]).phase ∧
    seek0.SamePrefix (small 12 false (.seeking 0) [0x77#8]) ∧
    seek0.buf ≠ (small 12 false (.seeking 0) [0x77#8]).buf := by
  refine ⟨seek0_sound, ⟨by decide, by decide, by decide⟩, rfl, rfl, ?_, by decide⟩
  intro i k hk hi
  have h0 : seek0.writeIndex = some 0 := rfl
  rw [h0] at hk
  cases hk
  exact absurd hi (Nat.not_lt_zero i)

/-- `Seeking(0)` and `Seeking(2)`, the ends of the range of SEEK_MATCH. -/
theorem test_witness_SeekMatchEffect :
    (seek0.Sound ∧ seek0.phase = .seeking 0 ∧ fe = hdr seek0.cfg.magic 0) ∧
    (seek2.Sound ∧ seek2.phase = .seeking 2 ∧ (2 : Fin 4).val < 3 ∧ fe = hdr seek2.cfg.magic 2 ∧ seek2.HeaderPrefix 2) :=
  ⟨⟨seek0_sound, rfl, rfl⟩, seek2_sound, rfl, by decide, rfl, seek2_header⟩

theorem test_witness_SeekAcceptEffect :
    seek3.Sound ∧ seek3.phase = .seeking 3 ∧ fe = hdr seek3.cfg.magic 3 ∧ seek3.HeaderPrefix 3 :=
  ⟨seek3_sound, rfl, rfl, seek3_header⟩

theorem test_witness_SeekMismatchEffect :
    (seek0.Sound ∧ seek0.phase = .seeking 0 ∧ (0x00#8 : Byte) ≠ hdr seek0.cfg.magic 0) ∧
    (seek3.Sound ∧ seek3.phase = .seeking 3 ∧ (0xFF#8 : Byte) ≠ hdr seek3.cfg.magic 3) :=
  ⟨⟨seek0_sound, rfl, by decide⟩, seek3_sound, rfl, by decide⟩

theorem uniform_fe : UniformMagic Config.defaultMagic fe := by
  show ∀ i, i < 4 → hdr Config.defaultMagic i = fe
  decide

theorem test_witness_NoRetry :
    (withMagic 0x44332211#32 seek0).Sound ∧ (withMagic 0x44332211#32 seek0).phase = .seeking 0 ∧
    (withMagic 0x44332211#32 seek0).cfg.magic = 0x44332211#32 ∧
    (withMagic 0x43414241#32 seek0).Sound ∧ (withMagic 0x43414241#32 seek0).phase = .seeking 0 ∧
    (withMagic 0x43414241#32 seek0).cfg.magic = 0x43414241#32 ∧
    seek3.Sound ∧ seek3.phase = .seeking 3 ∧ (0x00#8 : Byte) ≠ hdr seek3.cfg.magic 3 ∧
    UniformMagic Config.defaultMagic fe ∧ (0x00#8 : Byte) ≠ hdr Config.defaultMagic 3 :=
  ⟨⟨by decide, by decide, by decide⟩, rfl, rfl, ⟨by decide, by decide, by decide⟩, rfl, rfl, seek3_sound, rfl,
    by decide, uniform_fe, by decide⟩

/-- Three header bytes are no run of four, and four are one at index 1 behind another byte. -/
theorem test_witness_UniformSeekEnds :
    seek0.Sound ∧ seek0.phase = .seeking 0 ∧ UniformMagic seek0.cfg.magic fe ∧
    (∀ i, ¬ RunAt fe [fe, fe, fe] i) ∧ FirstRunAt fe [0x00#8, fe, fe, fe, fe] 1 := by
  refine ⟨seek0_sound, rfl, uniform_fe, ?_, ?_, ?_⟩
  · intro i h
    have h3 := h 3 (by decide)
    rw [List.getElem?_eq_none (by simp)] at h3
    cases h3
  · show ∀ k, k < 4 → [0x00#8, fe, fe, fe, fe][1 + k]? = some fe
    decide
  · intro j hj h
    have : j = 0 := by omega
    subst this
    exact absurd (h 0 (by decide)) (by decide)

/-- The rest of S1's frame. -/
theorem test_witness_AcceptedFrameValidates :
    seek3.Sound ∧ seek3.phase = .seeking 3 ∧ seek3.HeaderPrefix 3 ∧ (frameS1.drop 4).length + 4 = seek3.n :=
  ⟨seek3_sound, rfl, seek3_header, rfl⟩

/-- `Filling(2)` and `Filling(N)`, the ends of the range of FILL. -/
theorem test_witness_FillEffect :
    (fill2.Sound ∧ fill2.phase = .filling 2) ∧ (fill12.Sound ∧ fill12.phase = .filling 12 ∧ 2 ≤ 12) :=
  ⟨⟨fill2_sound, rfl⟩, fill12_sound, rfl, by decide⟩

/-- A completing state whose header validates, in both modes. -/
theorem test_witness_FillReadyEffect :
    (ready1.Sound ∧ ready1.phase = .filling 1 ∧ le ready1.buf.read 0 4 = ready1.cfg.magic.toNat ∧
      ready1.cfg.strict = false) ∧
    (strict1.Sound ∧ strict1.phase = .filling 1 ∧ le strict1.buf.read 0 4 = strict1.cfg.magic.toNat ∧
      strict1.cfg.strict = true) :=
  ⟨⟨ready1_sound, rfl, rfl, rfl⟩, strict1_sound, rfl, rfl, rfl⟩

theorem test_witness_FillRejectEffect :
    reject1.Sound ∧ reject1.phase = .filling 1 ∧ le reject1.buf.read 0 4 ≠ reject1.cfg.magic.toNat ∧ reject1.Inv := by
  refine ⟨reject1_sound, rfl, by decide, reject1_sound, ?_, ?_⟩
  · intro m h
    cases h
  · intro r h _
    cases h

theorem test_witness_StrictAffectsOnlyReady :
    (∀ b, Instr.fill fe ≠ .fillReady b) ∧ (∀ bytes, Instr.fill fe ≠ .chunk bytes) ∧
    ready1.Sound ∧ ready1.phase = .filling 1 ∧ le ready1.buf.read 0 4 = ready1.cfg.magic.toNat :=
  ⟨nofun, nofun, ready1_sound, rfl, rfl⟩

theorem test_witness_NoScanWhileFilling :
    (fill2.Sound ∧ fill2.phase = .filling 2) ∧ (ready1.Sound ∧ ready1.phase = .filling 1) :=
  ⟨⟨fill2_sound, rfl⟩, ready1_sound, rfl⟩

/-- A candidate that begins with the header and one that does not. -/
theorem test_witness_RearmedFrame :
    fill12.Sound ∧ fill12.cfg.strict = false ∧ fill12.phase = .filling fill12.n ∧ frameS1.length = fill12.n ∧
    frameS1.take 4 = headerBytes fill12.cfg.magic ∧ frameS1.reverse.length = fill12.n ∧
    frameS1.reverse.take 4 ≠ headerBytes fill12.cfg.magic :=
  ⟨fill12_sound, rfl, rfl, rfl, by decide, rfl, by decide⟩

/-- Two valid frames back to back. -/
theorem test_witness_BackToBackFrames :
    seek0.Sound ∧ seek0.phase = .seeking 0 ∧ (∀ g, g ∈ [frameS1, frameS1] → ValidFrame seek0.cfg g) ∧
    [frameS1, frameS1] ≠ [] := by
  refine ⟨seek0_sound, rfl, ?_, by decide⟩
  intro g hg
  have : g = frameS1 := by simpa using hg
  subst this
  exact ⟨by decide, by decide⟩

theorem test_witness_IdleEffect : seek2.cfg.Admitted ∧ (0x0FF#10).toNat < 0x100 := by decide

theorem test_witness_ResetEffect :
    fill2.cfg.Admitted ∧ 0x200 ≤ (0x3FF#10).toNat ∧ fill2.cfg.frameSize ≤ ((12 : Nat) : Int) := by decide

theorem test_witness_ChunkEffect :
    seek2.cfg.Admitted ∧ seek2.Sound ∧ (0x1FE#10).toNat = 0x100 + fe.toNat ∧
    ∃ s1 s2, step { seek2 with input := .stepWord 0x1FE#10 :: seek2.input } = .next s1 ∧
      exec (.chunk [fe]) s1 = .next s2 :=
  ⟨by decide, seek2_sound, by decide, _, _, rfl, rfl⟩

theorem test_witness_ChunkBoundaryIndependence :
    (∃ s1 s2, exec (.chunk [fe, fe]) seek0 = .next s1 ∧ exec (.chunk [fe, fe]) s1 = .next s2) ∧ seek0.cfg.Admitted ∧
    (∀ i, i ∈ [Instr.chunk [fe], .idle] → i = .idle ∨ ∃ bytes, i = .chunk bytes) := by
  refine ⟨⟨_, _, rfl, rfl⟩, by decide, ?_⟩
  intro i hi
  simp only [List.mem_cons, List.not_mem_nil, or_false] at hi
  rcases hi with rfl | rfl
  · exact .inr ⟨_, rfl⟩
  · exact .inl rfl

/-- A stream of one byte that is no header byte: seeking before it and after it. -/
theorem test_witness_NeverHeaderNoEvent :
    seek0.Sound ∧ seek0.phase = .seeking 0 ∧
    (∀ j, j ≤ [(0x00#8 : Byte)].length →
      ∃ t, exec (.chunk ([(0x00#8 : Byte)].take j)) seek0 = .next t ∧ t.PHASE ≤ 0) ∧
    UniformMagic seek0.cfg.magic fe ∧ ∀ i, ¬ RunAt fe [fe, fe, fe] i := by
  refine ⟨seek0_sound, rfl, ?_, uniform_fe, test_witness_UniformSeekEnds.2.2.2.1⟩
  intro j hj
  match j, hj with
  | 0, _ => exact ⟨_, rfl, by decide⟩
  | 1, _ => exact ⟨_, rfl, by decide⟩

/-- One genuine frame behind a garbage byte. -/
theorem test_witness_ResyncExact :
    seek0.Sound ∧ seek0.phase = .seeking 0 ∧ UniformMagic seek0.cfg.magic fe ∧ [frameS1] ≠ [] ∧
    (∀ g, g ∈ [frameS1] → ValidFrame seek0.cfg g) ∧
    FirstRunAt fe ([0x00#8] ++ [frameS1].flatten) [(0x00#8 : Byte)].length := by
  refine ⟨seek0_sound, rfl, uniform_fe, by decide, ?_, ?_, ?_⟩
  · intro g hg
    have : g = frameS1 := by simpa using hg
    subst this
    exact ⟨by decide, by decide⟩
  · show ∀ k, k < 4 → ([0x00#8] ++ [frameS1].flatten)[1 + k]? = some fe
    decide
  · intro j hj h
    have : j = 0 := by simpa using hj
    subst this
    exact absurd (h 0 (by decide)) (by decide)

theorem test_witness_EventSpacing :
    Config.example12.Admitted ∧ fill12.Sound ∧ fill12.phase = .filling fill12.n ∧ seek0.Sound ∧
    seek0.phase = .seeking 0 ∧ (frameS1.drop 1).length < seek0.n ∧ (frameS1.drop 1).length < fill12.n :=
  ⟨by decide, fill12_sound, rfl, seek0_sound, rfl, by decide, by decide⟩

/-- The boundary `offset + 4 = L`. -/
theorem test_witness_DecodeFits :
    (withLayout [⟨8, 4, some Config.scale160, "a"⟩] seek0).cfg.Admitted ∧
    ∀ f, f ∈ (withLayout [⟨8, 4, some Config.scale160, "a"⟩] seek0).cfg.layout →
      f.offset + 4 ≤ (frameS1.length : Int) := by decide

/-- The boundary `offset + 4 = L + 1`. -/
theorem test_witness_DecodeMisfit :
    (withLayout [⟨9, 4, none, "a"⟩] seek0).cfg.Admitted ∧
    ∃ f, f ∈ (withLayout [⟨9, 4, none, "a"⟩] seek0).cfg.layout ∧ f.offset + f.width > (frameS1.length : Int) :=
  ⟨by decide, ⟨9, 4, none, "a"⟩, by decide, by decide⟩

/-- The same layout beside another magic, phase and mode. -/
theorem test_witness_DecodePure :
    seek0.cfg.Admitted ∧ (withMagic 0x44332211#32 strict1).cfg.Admitted ∧
    seek0.cfg.layout = (withMagic 0x44332211#32 strict1).cfg.layout := by decide

theorem test_witness_LayoutAgainstFrameSize :
    ((withLayout [⟨9, 4, none, "a"⟩] seek0).cfg.Admitted ∧
      (⟨9, 4, none, "a"⟩ : LayoutEntry) ∈ (withLayout [⟨9, 4, none, "a"⟩] seek0).cfg.layout ∧
      (9 : Int) + 4 > (withLayout [⟨9, 4, none, "a"⟩] seek0).cfg.frameSize ∧ frameS1.length = seek0.n) ∧
    (Config.example12.Admitted ∧ ∀ f, f ∈ Config.example12.layout → f.offset + 4 ≤ Config.example12.frameSize) := by
  decide

theorem test_witness_RoundHalfEven :
    0 < 2 ∧ roundHalfEven 5 2 = 2 ∧ roundHalfEven 7 2 = 4 ∧ 2 * (2 * 2) + 2 = 2 * 5 ∧ 2 * (4 * 2) = 2 * 7 + 2 := by
  decide

/-- The ends of the range of raw values, with the divisor of the worked examples. -/
theorem test_witness_Div64Nearest :
    scaleAdmitted (some Config.scale160) = true ∧ (-2 ^ 31 : Int) ≤ -2147483648 ∧
    (2147483647 : Int) ≤ 2 ^ 31 - 1 ∧ |((2147483647 : Int) : ℚ) / binary64Value Config.scale160| < 2 ^ 1024 - 2 ^ 970 := by
  refine ⟨by decide, by decide, by decide, ?_⟩
  have hv : binary64Value Config.scale160 = 160 := by
    have h1 : binary64Sign Config.scale160 = false := by decide
    have h2 : binary64Significand Config.scale160 = 5 * 2 ^ 50 := by decide
    have h3 : binary64ScaleExp Config.scale160 = 1029 := by decide
    have h4 : (2 : ℚ) ^ 1074 = 2 ^ 1029 * 2 ^ 45 := by rw [← pow_add]
    have h5 : (2 : ℚ) ^ 1029 ≠ 0 := pow_ne_zero _ two_ne_zero
    unfold binary64Value
    rw [h1, h2, h3, Nat.cast_mul, Nat.cast_pow, Nat.cast_pow, Nat.cast_ofNat, h4]
    generalize (2 : ℚ) ^ 1029 = p at h5 ⊢
    field_simp
    norm_num
  have h6 : (2 : ℚ) ^ 1024 = 2 ^ 970 * 2 ^ 54 := by rw [← pow_add]
  have h7 : (1 : ℚ) ≤ 2 ^ 970 := one_le_pow₀ one_le_two
  rw [hv, abs_of_pos (by norm_num), h6]
  generalize (2 : ℚ) ^ 970 = p at h7
  norm_num
  linarith

/-- Admitted scales of both signs. -/
theorem test_witness_Div64Signs :
    scaleAdmitted (some Config.scale160) = true ∧ scaleAdmitted (some 0xC000000000000000#64) = true ∧
    (-2147483648 : Int) ≠ 0 := by decide

/-- The last byte of a frame. -/
theorem test_witness_EventPortBits : frameS1[11]? = some 0x00#8 ∧ frameS1[3]? = some fe := by decide

theorem test_witness_ChunkIsItsWords : seek2.Sound ∧ fill12.Sound := ⟨seek2_sound, fill12_sound⟩

theorem test_witness_CreatedInstance :
    Config.example12.Admitted ∧ Config.example12.frameSize ≤ ((12 : Nat) : Int) ∧
    ((11 : Nat) : Int) < Config.example12.frameSize := by decide

theorem test_witness_DiagnosticOnlyOnMismatch :
    (∀ bytes, Instr.seekAccept fe ≠ .chunk bytes) ∧ (∀ b, Instr.seekAccept fe ≠ .seekMismatch b) ∧
    (∃ t, exec (.seekAccept fe) seek3 = .next t) ∧
    (∃ t, exec (.seekMismatch 0x00#8) seek0 = .next t) ∧ ∃ t, exec (.seekMismatch 0x00#8) seek3 = .next t :=
  ⟨nofun, nofun, ⟨_, rfl⟩, ⟨_, rfl⟩, _, rfl⟩

/-- Both results of the decoder. -/
theorem test_witness_DecoderPortBits :
    (∃ t fields, exec (.decode frameS1) seek0 = .next t ∧ t.out.decoded = some (.ok fields)) ∧
    ∃ t k, exec (.decode frameS1) (withLayout [⟨9, 4, none, "a"⟩] seek0) = .next t ∧
      t.out.decoded = some (.decodeError k) :=
  ⟨⟨_, _, rfl, rfl⟩, _, _, rfl, rfl⟩

theorem test_witness_InstancesIndependent :
    ∃ after, stepInstance [seek0, strict1] 0 = some (.next after) := ⟨_, rfl⟩

theorem test_witness_AdmissionTable :
    (small 4 false (.seeking 0) []).cfg.configError = some .frameSizeTooSmall ∧
    Cfg.configError { frameSize := 12, layout := [⟨4, 4, some 0x7FF0000000000000#64, "s"⟩] } =
      some .fieldScaleInvalid := by decide

end Sys2Proof.Tests
end

/-! PROOFS. The statements of 10_state.md about `PHASE`: the tagged view (R19), its register (R20) and the derived
signals (R23). -/

namespace Sys2Proof.Machine

/-! ### `PHASE` and the tagged phase (R18, R19) -/

@[simp] theorem phaseValue_seeking (m : Fin 4) : phaseValue (.seeking m) = -(m.val : Int) := rfl

@[simp] theorem phaseValue_filling (r : Nat) : phaseValue (.filling r) = (r : Int) := rfl

@[simp] theorem legal_seeking (n : Nat) (m : Fin 4) : (Phase.seeking m).legal n = true := rfl

@[simp] theorem legal_filling {n r : Nat} : (Phase.filling r).legal n = true ↔ 1 ≤ r ∧ r ≤ n := by
  simp [Phase.legal]

/-- `PHASE` of a legal phase is in `[-3, N]` (R18). -/
theorem phaseValue_bounds_of_legal {n : Nat} {p : Phase} (h : p.legal n = true) :
    -3 ≤ phaseValue p ∧ phaseValue p ≤ n := by
  cases p with
  | seeking m =>
    have := m.isLt
    simp only [phaseValue_seeking]
    omega
  | filling r =>
    have := legal_filling.mp h
    simp only [phaseValue_filling]
    omega

/-- `PHASE` separates the legal phases: within a regime it determines the count, and its sign tells the regimes apart
because `Filling(0)` is not legal. -/
theorem phaseValue_injective_of_legal {n : Nat} {p q : Phase} (hp : p.legal n = true) (hq : q.legal n = true)
    (h : phaseValue p = phaseValue q) : p = q := by
  cases p with
  | seeking m =>
    cases q with
    | seeking m' =>
      have hm : m.val = m'.val := by simpa using h
      rw [Fin.ext hm]
    | filling r =>
      have := legal_filling.mp hq
      simp only [phaseValue_seeking, phaseValue_filling] at h
      omega
  | filling r =>
    cases q with
    | seeking m =>
      have := legal_filling.mp hp
      simp only [phaseValue_seeking, phaseValue_filling] at h
      omega
    | filling r' =>
      have hr : r = r' := by simpa using h
      rw [hr]

/-- Every value of `[-3, N]` is `PHASE` of a legal phase: the sign of the value chooses the regime. -/
theorem exists_legal_phaseValue_eq {n : Nat} {z : Int} (hlo : -3 ≤ z) (hhi : z ≤ n) :
    ∃ p : Phase, p.legal n = true ∧ phaseValue p = z := by
  by_cases hz : z ≤ 0
  · refine ⟨.seeking ⟨(-z).toNat, by omega⟩, legal_seeking _ _, ?_⟩
    simp only [phaseValue_seeking]
    omega
  · refine ⟨.filling z.toNat, legal_filling.mpr (by omega), ?_⟩
    simp only [phaseValue_filling]
    omega

/-- Settles O16: range, injectivity and surjectivity of `phaseValue` on the legal phases. -/
theorem phaseTagBijection : Obligations.PhaseTagBijection :=
  ⟨phaseValue_seeking, phaseValue_filling, fun _ =>
    ⟨fun _ => phaseValue_bounds_of_legal, fun _ _ => phaseValue_injective_of_legal,
      fun _ => exists_legal_phaseValue_eq⟩⟩

/-! ### The register of `PHASE_W` bits (R20) -/

/-- `PHASE_W` is the least width whose sign-free part holds `N`: the model's `log2` turned into a bound on powers. -/
theorem phaseWidth_le_succ_iff {n k : Nat} (hn : n ≠ 0) : phaseWidth n ≤ k + 1 ↔ n < 2 ^ k := by
  rw [← Nat.log2_lt hn, phaseWidth]
  omega

/-- `PHASE_W = 1 + ceil(log2(N + 1))`: both sides are the least width that `phaseWidth_le_succ_iff` describes. -/
theorem phaseWidth_eq_clog {n : Nat} (hn : n ≠ 0) : phaseWidth n = 1 + Nat.clog 2 (n + 1) := by
  have hclog (k : Nat) : phaseWidth n ≤ k + 1 ↔ Nat.clog 2 (n + 1) ≤ k := by
    rw [phaseWidth_le_succ_iff hn, Nat.clog_le_iff_le_pow Nat.one_lt_two, Nat.succ_le_iff]
  have hle := (hclog _).mpr le_rfl
  have hge := (hclog (phaseWidth n - 1)).mp (by omega)
  have hpos : 0 < phaseWidth n := by simp [phaseWidth]
  omega

theorem lt_two_pow_phaseWidth_pred {n : Nat} (hn : n ≠ 0) : n < 2 ^ (phaseWidth n - 1) :=
  (phaseWidth_le_succ_iff hn).mp (by omega)

/-- The range of `PHASE_W` bits contains `[-4, N]` (R20). For the lower end, `N >= 5` already makes the power exceed 4. -/
theorem phaseWidth_range {n : Nat} (hn : 5 ≤ n) :
    -(2 : Int) ^ (phaseWidth n - 1) ≤ -4 ∧ (n : Int) < 2 ^ (phaseWidth n - 1) := by
  have hlt : (n : Int) < 2 ^ (phaseWidth n - 1) := mod_cast lt_two_pow_phaseWidth_pred (by omega)
  exact ⟨by omega, hlt⟩

/-- No smaller width reaches `N`. -/
theorem phaseWidth_le_of_lt_two_pow {n w : Nat} (hn : n ≠ 0) (hw : 0 < w) (h : (n : Int) < 2 ^ (w - 1)) :
    phaseWidth n ≤ w := by
  have hlt : n < 2 ^ (w - 1) := mod_cast h
  have hle := (phaseWidth_le_succ_iff hn).mpr hlt
  omega

/-- The register of `PHASE_W` bits gives back every legal phase, which lies in its range. -/
theorem toInt_phaseRegister {n : Nat} {p : Phase} (hn : 5 ≤ n) (h : p.legal n = true) :
    (phaseRegister n p).toInt = phaseValue p := by
  obtain ⟨hlo, hhi⟩ := phaseValue_bounds_of_legal h
  obtain ⟨hmin, hmax⟩ := phaseWidth_range hn
  exact BitVec.toInt_ofInt_eq_self (by simp [phaseWidth]) (by omega) (by omega)

/-- Settles O56: `PHASE_W` is the least width with `N < 2 ^ (PHASE_W - 1)`, and for `N >= 5` its range contains `-4`. -/
theorem phaseRegisterWidth : Obligations.PhaseRegisterWidth := by
  intro n hn
  have hn0 : n ≠ 0 := by omega
  exact ⟨phaseWidth_eq_clog hn0, fun _ => toInt_phaseRegister hn, phaseWidth_range hn,
    fun _ hw _ => phaseWidth_le_of_lt_two_pow hn0 hw⟩

/-! ### The derived signals (R23) -/

theorem signals_of_seeking {s : State} {m : Fin 4} (h : s.phase = .seeking m) :
    s.SEEKING = true ∧ s.FILLING = false ∧ s.MATCHED = some m.val ∧ s.REMAINING = none := by
  have hP : s.PHASE = -(m.val : Int) := by rw [State.PHASE, h, phaseValue_seeking]
  have hS : s.SEEKING = true := by simp [State.SEEKING, hP]
  have hF : s.FILLING = false := by simp [State.FILLING, hP]
  exact ⟨hS, hF, by simp [State.MATCHED, hS, hP], by simp [State.REMAINING, hF]⟩

theorem signals_of_filling {s : State} {r : Nat} (h : s.phase = .filling r) (hr : 1 ≤ r) :
    s.SEEKING = false ∧ s.FILLING = true ∧ s.MATCHED = none ∧ s.REMAINING = some r := by
  have hP : s.PHASE = (r : Int) := by rw [State.PHASE, h, phaseValue_filling]
  have hS : s.SEEKING = false := by simpa [State.SEEKING, hP] using Nat.ne_of_gt hr
  have hF : s.FILLING = true := by simpa [State.FILLING, hP] using Nat.lt_of_succ_le hr
  exact ⟨hS, hF, by simp [State.MATCHED, hS], by simp [State.REMAINING, hF, hP]⟩

/-- Settles O17: one lemma per regime; the state after reset is `Seeking(0)`. -/
theorem derivedSignals : Obligations.DerivedSignals := by
  refine ⟨fun _ _ => signals_of_seeking, fun _ _ => signals_of_filling, fun c => ?_⟩
  obtain ⟨hS, -, hM, -⟩ := signals_of_seeking (State.initial_phase c)
  exact ⟨hS, hM⟩

end Sys2Proof.Machine

/-! PROOFS. The statements of 20_memory.md: little-endian reads and the header check (R35, R36), and the bounds of the
write pointer (R41). -/

namespace Sys2Proof.Machine

/-! ### The write pointer (R41) -/

theorem State.PHASE_of_seeking {s : State} {m : Fin 4} (h : s.phase = .seeking m) : s.PHASE = -(m.val : Int) := by
  rw [State.PHASE, h, phaseValue_seeking]

theorem State.PHASE_of_filling {s : State} {r : Nat} (h : s.phase = .filling r) : s.PHASE = (r : Int) := by
  rw [State.PHASE, h, phaseValue_filling]

theorem State.writeIndex_of_seeking {s : State} {m : Fin 4} (h : s.phase = .seeking m) :
    s.writeIndex = some m.val := by
  rw [State.writeIndex, h]

/-- Settles O18: the index exists and is in bounds in every sound state; its value is read off the regime, and the sign
of `PHASE` tells the regimes apart because `Filling(0)` is not legal. -/
theorem writeInBounds : Obligations.WriteInBounds := by
  intro s hs
  obtain ⟨i, hi, hlt⟩ := State.writeIndex_of_sound hs
  refine ⟨i, hi, hlt, ?_⟩
  cases hp : s.phase with
  | seeking m =>
    have hP := State.PHASE_of_seeking hp
    obtain rfl : m.val = i := Option.some.inj ((State.writeIndex_of_seeking hp).symm.trans hi)
    have hm := m.isLt
    exact ⟨fun _ => by omega, fun _ => by omega⟩
  | filling r =>
    have hP := State.PHASE_of_filling hp
    obtain ⟨hrn, rfl⟩ := writeIndex_filling hp hi
    obtain ⟨hr, -⟩ := legal_filling.mp (hp ▸ hs.phaseLegal)
    exact ⟨fun _ => by omega, fun _ => by omega⟩

/-! ### Little-endian reads and the header check (R26, R35, R36) -/

theorem le_succ (read : Nat → Byte) (a n : Nat) :
    le read a (n + 1) = le read a n + (read (a + n)).toNat * 2 ^ (8 * n) := rfl

/-- `LE(F, a, n)` is a value of `8n` bits (R35). -/
theorem le_lt (read : Nat → Byte) (a n : Nat) : le read a n < 2 ^ (8 * n) := by
  induction n with
  | zero => simp [le]
  | succ n ih =>
    have hbyte : ((read (a + n)).toNat + 1) * 2 ^ (8 * n) ≤ 2 ^ 8 * 2 ^ (8 * n) :=
      Nat.mul_le_mul_right _ (read (a + n)).isLt
    rw [le_succ, Nat.mul_succ, pow_add]
    linarith

/-- A number below `B` and a multiple of `B` are determined by their sum. -/
theorem add_mul_inj_of_lt {B x y u v : Nat} (hx : x < B) (hy : y < B) : x + u * B = y + v * B ↔ x = y ∧ u = v := by
  refine ⟨fun h => ?_, fun ⟨hxy, huv⟩ => by rw [hxy, huv]⟩
  have hmod := congrArg (· % B) h
  simp only [Nat.add_mul_mod_self_right, Nat.mod_eq_of_lt hx, Nat.mod_eq_of_lt hy] at hmod
  subst hmod
  exact ⟨rfl, Nat.eq_of_mul_eq_mul_right (by omega) (Nat.add_left_cancel h)⟩

/-- Two reads of `n` bytes give the same value exactly when they read the same bytes: the last byte is the part above
`8n` bits, and the bytes before it the part below. -/
theorem le_inj (f g : Nat → Byte) (a b n : Nat) : le f a n = le g b n ↔ ∀ i, i < n → f (a + i) = g (b + i) := by
  induction n with
  | zero => simp [le]
  | succ n ih =>
    rw [le_succ, le_succ, add_mul_inj_of_lt (le_lt f a n) (le_lt g b n), ih, BitVec.toNat_inj,
      Nat.forall_lt_succ_right]

theorem toNat_hdr (magic : Word32) (i : Nat) : (hdr magic i).toNat = magic.toNat / 2 ^ (8 * i) % 2 ^ 8 := by
  rw [hdr, BitVec.extractLsb'_toNat, Nat.shiftRight_eq_div_pow]

/-- `MAGIC` is the little-endian value of its own header bytes (R26, R35). -/
theorem le_hdr (magic : Word32) : le (hdr magic) 0 4 = magic.toNat := by
  have hlt : magic.toNat < 2 ^ 32 := magic.isLt
  simp only [le_four, toNat_hdr]
  omega

theorem le_read_eq_magic_iff (m : Memory) (magic : Word32) :
    le m.read 0 4 = magic.toNat ↔ ∀ i, i < 4 → m.read i = hdr magic i := by
  rw [← le_hdr magic, le_inj]
  simp only [Nat.zero_add]

/-- The 32-bit header value loses nothing of the sum. -/
@[simp] theorem toNat_headerValue (m : Memory) : (headerValue m).toNat = le m.read 0 4 := by
  rw [headerValue, BitVec.toNat_ofNat, Nat.mod_eq_of_lt (le_lt m.read 0 4)]

theorem headerValue_eq_iff (m : Memory) (magic : Word32) : headerValue m = magic ↔ le m.read 0 4 = magic.toNat := by
  rw [← BitVec.toNat_inj, toNat_headerValue]

/-- Settles O19: four bytes are determined by their little-endian value (`le_inj`), and `MAGIC` is that of `HDR`. -/
theorem headerCheckEquivalence : Obligations.HeaderCheckEquivalence :=
  fun m magic => ⟨le_read_eq_magic_iff m magic, headerValue_eq_iff m magic⟩

end Sys2Proof.Machine

/-! PROOFS. The statements of 30_encoding.md: the step word (R50, R51), the selection of a `BYTE` operation (R52), and a
chunk as its words (R60, R61). -/

namespace Sys2Proof

/-! ### The step word (R50, R51, R60) -/

/-- `0x100 | b` is a sum, since `b` has no bit at 8 or above. -/
theorem toNat_byteWord (b : Byte) : (byteWord b).toNat = 0x100 + b.toNat := by
  have hb : b.toNat < 2 ^ 8 := b.isLt
  have hor : 2 ^ 8 * 1 + b.toNat = 2 ^ 8 * 1 ||| b.toNat := Nat.two_pow_add_eq_or_of_lt hb 1
  simpa [byteWord, Nat.mod_eq_of_lt (hb.trans (by decide : 2 ^ 8 < 1024))] using hor.symm

/-- RST is set exactly in the words from `0x200` on: it is the top bit. -/
theorem getLsbD_rst (w : StepWord) : w.getLsbD 9 = decide (0x200 ≤ w.toNat) := by
  have hw := w.isLt
  rw [BitVec.getLsbD, Nat.testBit_eq_decide_div_mod_eq, decide_eq_decide]
  omega

/-- With RST clear, VALID is the top bit of what is left. -/
theorem getLsbD_valid_of_lt {w : StepWord} (h : w.toNat < 0x200) : w.getLsbD 8 = decide (0x100 ≤ w.toNat) := by
  rw [BitVec.getLsbD, Nat.testBit_eq_decide_div_mod_eq, decide_eq_decide]
  omega

theorem decodeStepWord_of_ge {w : StepWord} (h : 0x200 ≤ w.toNat) : decodeStepWord w = .reset := by
  rw [decodeStepWord, getLsbD_rst, decide_eq_true h, if_pos rfl]

theorem decodeStepWord_of_lt {w : StepWord} (h : w.toNat < 0x100) : decodeStepWord w = .idle := by
  have hlt : w.toNat < 0x200 := by omega
  have hrst : w.getLsbD 9 = false := by rw [getLsbD_rst, decide_eq_false (Nat.not_le.mpr hlt)]
  have hvalid : w.getLsbD 8 = false := by rw [getLsbD_valid_of_lt hlt, decide_eq_false (Nat.not_le.mpr h)]
  rw [decodeStepWord, hrst, hvalid]
  rfl

theorem decode_byteWord_of_selected {v : SelectView} {b : Byte} {op : ByteOp} (h : selectByte v b = some op) :
    decode v (.stepWord (byteWord b)) = .ok (op.instr b) := by
  simp only [decode, decodeStepWord_byteWord, h]

/-- The words between those of RESET and IDLE are the canonical `BYTE` words. -/
theorem exists_toNat_eq_byte {w : StepWord} (hlo : 0x100 ≤ w.toNat) (hhi : w.toNat < 0x200) :
    ∃ b : Byte, w.toNat = 0x100 + b.toNat := by
  refine ⟨BitVec.ofNat 8 (w.toNat - 0x100), ?_⟩
  rw [BitVec.toNat_ofNat]
  omega

/-- Settles O1: RST and VALID are the two top bits, so each clause is a range of `W`; a `BYTE` word is the canonical one
because a word is determined by its number. -/
theorem stepWordDecode : Obligations.StepWordDecode := by
  intro v w
  refine ⟨fun h => ?reset, fun h => ?idle, fun b op hw hsel => ?byte, ?total⟩
  case reset => simp only [decode, decodeStepWord_of_ge h]
  case idle => simp only [decode, decodeStepWord_of_lt h]
  case byte =>
    obtain rfl : w = byteWord b := BitVec.eq_of_toNat_eq (hw.trans (toNat_byteWord b).symm)
    exact decode_byteWord_of_selected hsel
  case total =>
    by_cases hhi : 0x200 ≤ w.toNat
    · exact .inl hhi
    · by_cases hlo : w.toNat < 0x100
      · exact .inr (.inl hlo)
      · exact .inr (.inr (exists_toNat_eq_byte (by omega) (by omega)))

/-! ### Selection and state condition (R52) -/

theorem selectByte_of_seeking {v : SelectView} {m : Fin 4} (h : v.phase = .seeking m) (b : Byte) :
    selectByte v b =
      if b = v.expected then if m.val = 3 then some .seekAccept else some .seekMatch else some .seekMismatch := by
  rw [selectByte, h]

theorem selectByte_of_filling {v : SelectView} {r : Nat} (h : v.phase = .filling r) (hr : 1 ≤ r) (b : Byte) :
    selectByte v b =
      if r = 1 then if v.headerOk then some .fillReady else some .fillReject else some .fill := by
  simp [selectByte, h, Nat.ne_of_gt hr]

@[simp] theorem Instr.selectedIn_seekMatch {v : SelectView} {b : Byte} :
    (Instr.seekMatch b).selectedIn v = true ↔ ∃ m, v.phase = .seeking m ∧ m.val < 3 ∧ b = v.expected := by
  cases hp : v.phase <;> simp [Instr.selectedIn, hp]

@[simp] theorem Instr.selectedIn_seekAccept {v : SelectView} {b : Byte} :
    (Instr.seekAccept b).selectedIn v = true ↔ ∃ m, v.phase = .seeking m ∧ m.val = 3 ∧ b = v.expected := by
  cases hp : v.phase <;> simp [Instr.selectedIn, hp]

@[simp] theorem Instr.selectedIn_seekMismatch {v : SelectView} {b : Byte} :
    (Instr.seekMismatch b).selectedIn v = true ↔ ∃ m, v.phase = .seeking m ∧ b ≠ v.expected := by
  cases hp : v.phase <;> simp [Instr.selectedIn, hp]

@[simp] theorem Instr.selectedIn_fill {v : SelectView} {b : Byte} :
    (Instr.fill b).selectedIn v = true ↔ ∃ r, v.phase = .filling r ∧ 2 ≤ r := by
  cases hp : v.phase <;> simp [Instr.selectedIn, hp]

@[simp] theorem Instr.selectedIn_fillReady {v : SelectView} {b : Byte} :
    (Instr.fillReady b).selectedIn v = true ↔ v.phase = .filling 1 ∧ v.headerOk = true := by
  cases hp : v.phase <;> simp [Instr.selectedIn, hp]

@[simp] theorem Instr.selectedIn_fillReject {v : SelectView} {b : Byte} :
    (Instr.fillReject b).selectedIn v = true ↔ v.phase = .filling 1 ∧ v.headerOk = false := by
  cases hp : v.phase <;> simp [Instr.selectedIn, hp]

/-- The selection is the row whose condition holds. -/
theorem selectByte_eq_some_iff {v : SelectView} {b : Byte} {op : ByteOp} :
    selectByte v b = some op ↔ (op.instr b).selectedIn v = true := by
  refine ⟨selectByte_selectedIn, fun h => ?_⟩
  cases op with
  | seekMatch =>
    obtain ⟨m, hp, hm, hb⟩ := Instr.selectedIn_seekMatch.mp h
    rw [selectByte_of_seeking hp, if_pos hb, if_neg (Nat.ne_of_lt hm)]
  | seekAccept =>
    obtain ⟨m, hp, hm, hb⟩ := Instr.selectedIn_seekAccept.mp h
    rw [selectByte_of_seeking hp, if_pos hb, if_pos hm]
  | seekMismatch =>
    obtain ⟨m, hp, hb⟩ := Instr.selectedIn_seekMismatch.mp h
    rw [selectByte_of_seeking hp, if_neg hb]
  | fill =>
    obtain ⟨r, hp, hr⟩ := Instr.selectedIn_fill.mp h
    rw [selectByte_of_filling hp (by omega), if_neg (by omega)]
  | fillReady =>
    obtain ⟨hp, hok⟩ := Instr.selectedIn_fillReady.mp h
    rw [selectByte_of_filling hp le_rfl, if_pos rfl, if_pos hok]
  | fillReject =>
    obtain ⟨hp, hok⟩ := Instr.selectedIn_fillReject.mp h
    rw [selectByte_of_filling hp le_rfl, if_pos rfl, hok]
    rfl

end Sys2Proof

namespace Sys2Proof.Machine

/-! ### The rows of R52 in terms of `PHASE` -/

theorem State.phase_eq_filling_iff {s : State} {r : Nat} (hr : 1 ≤ r) : s.phase = .filling r ↔ s.PHASE = (r : Int) := by
  cases hp : s.phase with
  | seeking m =>
    have hP := State.PHASE_of_seeking hp
    simp only [reduceCtorEq, false_iff]
    omega
  | filling r' => simp [State.PHASE_of_filling hp]

theorem State.exists_filling_iff {s : State} : (∃ r, s.phase = .filling r ∧ 2 ≤ r) ↔ 2 ≤ s.PHASE := by
  cases hp : s.phase with
  | seeking m =>
    have hP := State.PHASE_of_seeking hp
    simp only [reduceCtorEq, false_and, exists_false, false_iff]
    omega
  | filling r => simp [State.PHASE_of_filling hp]

/-- In a sound state the seeking phases are those with `PHASE <= 0`, and the byte they wait for is `HDR[-PHASE]`. A
property `p` of the count and of that byte can be read either way. -/
theorem State.exists_seeking_iff {s : State} (hs : s.Sound) {p : Nat → Byte → Prop} :
    (∃ m, s.phase = .seeking m ∧ p m.val s.view.expected) ↔
      s.PHASE ≤ 0 ∧ p (-s.PHASE).toNat (hdr s.cfg.magic (-s.PHASE).toNat) := by
  cases hp : s.phase with
  | seeking m => simp [State.PHASE_of_seeking hp, State.view_expected s m hp]
  | filling r =>
    have hP := State.PHASE_of_filling hp
    obtain ⟨hr, -⟩ := legal_filling.mp (hp ▸ hs.phaseLegal)
    simp only [reduceCtorEq, false_and, exists_false, false_iff]
    omega

theorem selectByte_eq_seekMatch_iff {s : State} (hs : s.Sound) (b : Byte) :
    selectByte s.view b = some .seekMatch ↔
      (s.PHASE = 0 ∨ s.PHASE = -1 ∨ s.PHASE = -2) ∧ b = hdr s.cfg.magic (-s.PHASE).toNat := by
  rw [selectByte_eq_some_iff, ByteOp.instr, Instr.selectedIn_seekMatch, State.view_phase,
    State.exists_seeking_iff hs (p := fun m e => m < 3 ∧ b = e), ← and_assoc]
  exact and_congr_left' (by omega)

theorem selectByte_eq_seekAccept_iff {s : State} (hs : s.Sound) (b : Byte) :
    selectByte s.view b = some .seekAccept ↔ s.PHASE = -3 ∧ b = hdr s.cfg.magic 3 := by
  rw [selectByte_eq_some_iff, ByteOp.instr, Instr.selectedIn_seekAccept, State.view_phase,
    State.exists_seeking_iff hs (p := fun m e => m = 3 ∧ b = e), ← and_assoc]
  have hP : s.PHASE ≤ 0 ∧ (-s.PHASE).toNat = 3 ↔ s.PHASE = -3 := by omega
  rw [hP]
  exact and_congr_right fun h => by rw [h]; rfl

theorem selectByte_eq_seekMismatch_iff {s : State} (hs : s.Sound) (b : Byte) :
    selectByte s.view b = some .seekMismatch ↔ s.PHASE ≤ 0 ∧ b ≠ hdr s.cfg.magic (-s.PHASE).toNat := by
  rw [selectByte_eq_some_iff, ByteOp.instr, Instr.selectedIn_seekMismatch, State.view_phase,
    State.exists_seeking_iff hs (p := fun _ e => b ≠ e)]

theorem selectByte_eq_fill_iff (s : State) (b : Byte) : selectByte s.view b = some .fill ↔ 2 ≤ s.PHASE := by
  rw [selectByte_eq_some_iff, ByteOp.instr, Instr.selectedIn_fill, State.view_phase, State.exists_filling_iff]

theorem selectByte_eq_fillReady_iff (s : State) (b : Byte) :
    selectByte s.view b = some .fillReady ↔ s.PHASE = 1 ∧ le s.buf.read 0 4 = s.cfg.magic.toNat := by
  rw [selectByte_eq_some_iff, ByteOp.instr, Instr.selectedIn_fillReady, State.view_phase, State.view_headerOk,
    State.phase_eq_filling_iff le_rfl, decide_eq_true_iff, headerValue_eq_iff, Nat.cast_one]

theorem selectByte_eq_fillReject_iff (s : State) (b : Byte) :
    selectByte s.view b = some .fillReject ↔ s.PHASE = 1 ∧ le s.buf.read 0 4 ≠ s.cfg.magic.toNat := by
  rw [selectByte_eq_some_iff, ByteOp.instr, Instr.selectedIn_fillReject, State.view_phase, State.view_headerOk,
    State.phase_eq_filling_iff le_rfl, decide_eq_false_iff_not, headerValue_eq_iff, Nat.cast_one]

/-- `Filling(0)` is not legal, so in a sound state some row applies. -/
theorem exists_selectByte_eq_some {s : State} (hs : s.Sound) (b : Byte) : ∃ op, selectByte s.view b = some op := by
  refine Option.ne_none_iff_exists'.mp fun hnone => ?_
  have hp : s.phase = .filling 0 := selectByte_eq_none.mp hnone
  obtain ⟨hr, -⟩ := legal_filling.mp (hp ▸ hs.phaseLegal)
  omega

/-- A write at index 4 or above leaves the header value alone. -/
theorem le_write_of_four_le {i : Nat} (h : 4 ≤ i) (b : Byte) (m : Memory) :
    le (m.write i b).read 0 4 = le m.read 0 4 :=
  (le_inj _ _ 0 0 4).mpr fun j hj => Memory.read_write_ne (by omega) b m

/-- Settles O5: a row is selected exactly when its condition holds (`selectByte_eq_some_iff`), each condition is read in
terms of `PHASE`, and the completing write, at `N - 1 >= 4`, does not touch the header. -/
theorem byteSelection : Obligations.ByteSelection := by
  intro s b hs
  have hN : 5 ≤ s.n := Cfg.five_le_of_admitted hs.admitted
  have hle : le (s.buf.write (s.n - 1) b).read 0 4 = le s.buf.read 0 4 := le_write_of_four_le (by omega) b s.buf
  rw [hle]
  exact ⟨selectByte_eq_seekMatch_iff hs b, selectByte_eq_seekAccept_iff hs b, selectByte_eq_seekMismatch_iff hs b,
    selectByte_eq_fill_iff s b, selectByte_eq_fillReady_iff s b, selectByte_eq_fillReject_iff s b,
    exists_selectByte_eq_some hs b, rfl⟩

/-! ### What the ports will present has no influence on a `BYTE` step -/

/-- The state whose ports will present `l`. -/
def State.withInput (l : List PortInput) (s : State) : State := { s with input := l }

@[simp] theorem State.withInput_phase (l : List PortInput) (s : State) : (s.withInput l).phase = s.phase := rfl
@[simp] theorem State.withInput_view (l : List PortInput) (s : State) : (s.withInput l).view = s.view := rfl

theorem mapState_andThen (f : State → State) (o : StepResult) (g : State → StepResult) :
    mapState f (andThen o g) = andThen o fun s => mapState f (g s) := by
  cases o <;> rfl

theorem andThen_mapState (f : State → State) (o : StepResult) (g : State → StepResult) :
    andThen (mapState f o) g = andThen o fun s => g (f s) := by
  cases o <;> rfl

theorem onInstance_withInput (l : List PortInput) (s : State) (k : StepResult) :
    onInstance (s.withInput l) (mapState (State.withInput l) k) = mapState (State.withInput l) (onInstance s k) := by
  simp only [onInstance, State.withInput]
  cases s.cfg.configError <;> rfl

theorem storeByte_withInput (l : List PortInput) (b : Byte) (s : State) :
    storeByte b (s.withInput l) = mapState (State.withInput l) (storeByte b s) := by
  have hi : (s.withInput l).writeIndex = s.writeIndex := rfl
  have hn : (s.withInput l).n = s.n := rfl
  rw [storeByte, storeByte, hi, hn]
  cases s.writeIndex with
  | none => rfl
  | some i => by_cases h : i < s.n <;> simp only [h, if_true, if_false] <;> rfl

/-- A body of a `BYTE` operation that passes the coming inputs through makes an operation that does. -/
theorem runByteOp_withInput {l : List PortInput} {body : State → StepResult}
    (hbody : ∀ s, body (s.withInput l) = mapState (State.withInput l) (body s)) (i : Instr) (s : State) :
    runByteOp i (s.withInput l) body = mapState (State.withInput l) (runByteOp i s body) := by
  rw [runByteOp, runByteOp, ← onInstance_withInput, State.withInput_view]
  by_cases h : i.selectedIn s.view = true
  · rw [if_pos h, if_pos h, ← hbody]
    rfl
  · rw [if_neg h, if_neg h]
    rfl

/-- The same for a body that begins with the store of the byte. -/
theorem runByteOp_store_withInput {l : List PortInput} {rest : State → StepResult}
    (hrest : ∀ s, rest (s.withInput l) = mapState (State.withInput l) (rest s)) (i : Instr) (b : Byte) (s : State) :
    runByteOp i (s.withInput l) (fun s => andThen (storeByte b s) rest) =
      mapState (State.withInput l) (runByteOp i s fun s => andThen (storeByte b s) rest) := by
  refine runByteOp_withInput (fun s => ?_) i s
  rw [storeByte_withInput, andThen_mapState, mapState_andThen]
  exact congrArg _ (funext hrest)

theorem runSelected_withInput (l : List PortInput) (op : ByteOp) (b : Byte) (s : State) :
    runSelected op b (s.withInput l) = mapState (State.withInput l) (runSelected op b s) := by
  cases op with
  | seekMatch =>
    refine runByteOp_store_withInput (fun s => ?_) _ b s
    simp only [State.withInput_phase]
    cases s.phase <;> rfl
  | seekAccept => exact runByteOp_store_withInput (fun _ => rfl) _ b s
  | seekMismatch =>
    rw [runSelected, runSelected, execSeekMismatch, execSeekMismatch]
    refine runByteOp_withInput (fun s => ?_) _ s
    simp only [State.withInput_phase]
    cases s.phase <;> rfl
  | fill =>
    refine runByteOp_store_withInput (fun s => ?_) _ b s
    simp only [State.withInput_phase]
    cases s.phase <;> rfl
  | fillReady => exact runByteOp_store_withInput (fun _ => rfl) _ b s
  | fillReject => exact runByteOp_store_withInput (fun _ => rfl) _ b s

/-- A `BYTE` step neither reads nor changes what the ports will present next. -/
theorem byteStep_withInput (l : List PortInput) (b : Byte) (s : State) :
    byteStep b (s.withInput l) = mapState (State.withInput l) (byteStep b s) := by
  rw [byteStep, byteStep, State.withInput_view]
  cases selectByte s.view b with
  | none => rfl
  | some op => exact runSelected_withInput l op b s

/-! ### `BYTE` steps in a sound state -/

theorem rearmPhase_legal {c : Cfg} (h : c.Admitted) : (rearmPhase c).legal c.n = true := by
  have hN : 5 ≤ c.n := Cfg.five_le_of_admitted h
  rw [rearmPhase]
  split
  · rfl
  · exact legal_filling.mpr ⟨by omega, le_rfl⟩

/-- What a `BYTE` operation leaves is sound: it writes inside `BUF`, if at all, and `PHASE` stays legal. -/
theorem exec_byteOp_keeps_sound {op : ByteOp} {b : Byte} {s t : State} (hs : s.Sound)
    (h : exec (op.instr b) s = .next t) : t.Sound := by
  have hN : 5 ≤ s.n := Cfg.five_le_of_admitted hs.admitted
  cases op with
  | seekMatch =>
    obtain ⟨ha, m, -, -, -, hm, rfl⟩ := execSeekMatch_next h
    exact ⟨ha, Memory.wf_write hs.bufWf hm b, rfl⟩
  | seekAccept =>
    obtain ⟨ha, -, -, rfl⟩ := execSeekAccept_next h
    exact ⟨ha, Memory.wf_write hs.bufWf (by omega) b, legal_filling.mpr ⟨by omega, Nat.sub_le _ _⟩⟩
  | seekMismatch =>
    obtain ⟨ha, m, -, -, rfl⟩ := execSeekMismatch_next h
    exact ⟨ha, hs.bufWf, rfl⟩
  | fill =>
    obtain ⟨ha, r, -, hr, hrn, rfl⟩ := execFill_next h
    exact ⟨ha, Memory.wf_write hs.bufWf (by omega) b, legal_filling.mpr ⟨by omega, (Nat.sub_le r 1).trans hrn⟩⟩
  | fillReady =>
    obtain ⟨ha, -, -, rfl⟩ := execFillReady_next h
    exact ⟨ha, Memory.wf_write hs.bufWf (by omega) b, rearmPhase_legal ha⟩
  | fillReject =>
    obtain ⟨ha, -, -, rfl⟩ := execFillReject_next h
    exact ⟨ha, Memory.wf_write hs.bufWf (by omega) b, rfl⟩

theorem runByteOp_of_selectedIn {i : Instr} {s : State} (ha : s.cfg.Admitted) (hsel : i.selectedIn s.view = true)
    (body : State → StepResult) : runByteOp i s body = body s.clearOut.countByte := by
  rw [runByteOp, onInstance_admitted ha, if_pos hsel]

theorem storeByte_of_sound {s : State} (hs : s.Sound) (b : Byte) :
    ∃ i, storeByte b s = .next { s with buf := s.buf.write i b } := by
  obtain ⟨i, hi, hin⟩ := State.writeIndex_of_sound hs
  exact ⟨i, storeByte_eq_next.mpr ⟨i, hi, hin, rfl⟩⟩

/-- A selected `BYTE` operation that begins with the store answers when what follows the store does. -/
theorem runByteOp_store_of_sound {i : Instr} {s : State} {rest : State → StepResult} (hs : s.Sound)
    (hsel : i.selectedIn s.view = true) (hrest : ∀ u : State, u.phase = s.phase → ∃ t, rest u = .next t) (b : Byte) :
    ∃ t, runByteOp i s (fun s => andThen (storeByte b s) rest) = .next t := by
  have hs' : s.clearOut.countByte.Sound := ⟨hs.admitted, hs.bufWf, hs.phaseLegal⟩
  obtain ⟨k, hk⟩ := storeByte_of_sound hs' b
  rw [runByteOp_of_selectedIn hs.admitted hsel, hk, andThen_next]
  exact hrest _ rfl

theorem exec_byteOp_of_sound {op : ByteOp} {b : Byte} {s : State} (hs : s.Sound)
    (hsel : (op.instr b).selectedIn s.view = true) : ∃ t, exec (op.instr b) s = .next t := by
  cases op with
  | seekMatch =>
    obtain ⟨m, hp, -⟩ := Instr.selectedIn_seekMatch.mp hsel
    exact runByteOp_store_of_sound hs hsel (fun u hu => by simp [hu.trans hp]) b
  | seekAccept => exact runByteOp_store_of_sound hs hsel (fun _ _ => ⟨_, rfl⟩) b
  | seekMismatch =>
    obtain ⟨m, hp, -⟩ := Instr.selectedIn_seekMismatch.mp hsel
    rw [State.view_phase] at hp
    rw [ByteOp.instr] at hsel ⊢
    rw [exec, execSeekMismatch, runByteOp_of_selectedIn hs.admitted hsel]
    simp [hp]
  | fill =>
    obtain ⟨r, hp, -⟩ := Instr.selectedIn_fill.mp hsel
    exact runByteOp_store_of_sound hs hsel (fun u hu => by simp [hu.trans hp]) b
  | fillReady => exact runByteOp_store_of_sound hs hsel (fun _ _ => ⟨_, rfl⟩) b
  | fillReject => exact runByteOp_store_of_sound hs hsel (fun _ _ => ⟨_, rfl⟩) b

/-- In a sound state every `BYTE` step answers, and leaves a sound state. -/
theorem byteStep_of_sound {s : State} (hs : s.Sound) (b : Byte) : ∃ t, byteStep b s = .next t ∧ t.Sound := by
  obtain ⟨op, hop⟩ := exists_selectByte_eq_some hs b
  obtain ⟨t, ht⟩ := exec_byteOp_of_sound hs (selectByte_eq_some_iff.mp hop)
  exact ⟨t, (byteStep_eq_exec hop).trans ht, exec_byteOp_keeps_sound hs ht⟩

/-- In a sound state every chunk is taken to its end (R78). -/
theorem ingest_of_sound {s : State} (hs : s.Sound) (bytes : List Byte) : ∃ t, ingest bytes s = .next t := by
  induction bytes generalizing s with
  | nil => exact ⟨_, ingest_nil s⟩
  | cons b rest ih =>
    obtain ⟨s1, h1, hs1⟩ := byteStep_of_sound hs b
    obtain ⟨s2, h2⟩ := ih hs1
    exact ⟨_, ingest_cons_next.mpr ⟨s1, s2, h1, h2, rfl⟩⟩

/-! ### A chunk and its words (R60, R61) -/

/-- With a canonical `BYTE` word on the port, a step is the `BYTE` step of its byte (R51 item 3). -/
theorem step_byteWord (b : Byte) (rest : List PortInput) (s : State) :
    step (s.withInput (.stepWord (byteWord b) :: rest)) = byteStep b (s.withInput rest) := by
  have hpop : (s.withInput (.stepWord (byteWord b) :: rest)).popInput = s.withInput rest := rfl
  have hfetch : fetch (s.withInput (.stepWord (byteWord b) :: rest)) = decode s.view (.stepWord (byteWord b)) := rfl
  rw [step, hfetch, hpop]
  cases hsel : selectByte s.view b with
  | none => simp only [decode, decodeStepWord_byteWord, hsel, byteStep, State.withInput_view]
  | some op => rw [decode_byteWord_of_selected hsel, byteStep_eq_exec (s := s.withInput rest) hsel]

theorem core_run_succ_of_step {s t : State} (h : step s = .next t) (k : Nat) :
    Sys2Proof.core.run (k + 1) s = Sys2Proof.core.run k t := by
  have hcore : Sys2Proof.core.step s = .next t := h
  simp only [Host.Core.run, hcore]

/-- Stepping through the words of `bytes` ends where `ingest` does, but for the outputs and the consumed input: each
word's step is the `BYTE` step of `ingest`, which does not see the words still to come. -/
theorem core_run_byteWords {bytes : List Byte} {s t : State} (h : ingest bytes s = .next t) :
    ∃ o, Sys2Proof.core.run bytes.length (s.withInput ((bytes.map byteWord).map .stepWord)) =
      .next { t with out := o, input := [] } := by
  induction bytes generalizing s t with
  | nil =>
    cases h
    exact ⟨s.out, rfl⟩
  | cons b rest ih =>
    obtain ⟨s1, s2, h1, h2, rfl⟩ := ingest_cons_next.mp h
    obtain ⟨o, ho⟩ := ih h2
    have hstep : step (s.withInput (((b :: rest).map byteWord).map .stepWord)) =
        .next (s1.withInput ((rest.map byteWord).map .stepWord)) := by
      rw [List.map_cons, List.map_cons, step_byteWord, byteStep_withInput, h1]
      rfl
    exact ⟨o, (core_run_succ_of_step hstep rest.length).trans ho⟩

/-- The words of a `CHUNK` line are those of its bytes, one after another. -/
theorem Stimulus.words_chunk (bytes : List Byte) :
    (Stimulus.chunk bytes).words = bytes.flatMap fun b => (Stimulus.byte b).words :=
  List.map_eq_flatMap

/-- Settles O7: the words are read off the definitions; in a sound state the chunk is taken to its end
(`ingest_of_sound`), and its words end in the same registers (`core_run_byteWords`). -/
theorem chunkIsItsWords : Obligations.ChunkIsItsWords := by
  refine ⟨rfl, rfl, fun b => congrArg (fun k => [k]) (toNat_byteWord b), Stimulus.words_chunk, fun s bytes hs => ?_⟩
  have hs0 : (s.withInput []).Sound := ⟨hs.admitted, hs.bufWf, hs.phaseLegal⟩
  obtain ⟨t, ht⟩ := ingest_of_sound hs0 bytes
  obtain ⟨o, ho⟩ := core_run_byteWords ht
  exact ⟨t, _, execChunk_next.mpr ⟨hs.admitted, ht⟩, ho, rfl, rfl, rfl, rfl, rfl⟩

end Sys2Proof.Machine

/-! PROOFS. The statements of 40_seek.md: the three seeking operations (R63 to R65), streams without a frame (R66, R67),
and the frame entered by SEEK_ACCEPT (R68). -/

namespace Sys2Proof.Machine

/-! ### What a `BYTE` operation leaves -/

/-- The state a `BYTE` operation leaves: a new phase, buffer and outputs, and one byte more counted (R24). -/
def State.afterByte (s : State) (p : Phase) (buf : Memory) (o : Outputs) : State :=
  { s with phase := p, buf := buf, pos := s.pos + 1, out := o }

section
variable (s : State) (p : Phase) (buf : Memory) (o : Outputs)

@[simp] theorem State.afterByte_cfg : (s.afterByte p buf o).cfg = s.cfg := rfl
@[simp] theorem State.afterByte_phase : (s.afterByte p buf o).phase = p := rfl
@[simp] theorem State.afterByte_buf : (s.afterByte p buf o).buf = buf := rfl
@[simp] theorem State.afterByte_pos : (s.afterByte p buf o).pos = s.pos + 1 := rfl
@[simp] theorem State.afterByte_out : (s.afterByte p buf o).out = o := rfl
@[simp] theorem State.afterByte_input : (s.afterByte p buf o).input = s.input := rfl
@[simp] theorem State.afterByte_n : (s.afterByte p buf o).n = s.n := rfl

end

/-- The `BYTE` word of `b` asks for the operation that `b` selects (R51, R52). -/
theorem decode_of_toNat_eq {v : SelectView} {b : Byte} {op : ByteOp} (hsel : selectByte v b = some op) (w : StepWord)
    (hw : w.toNat = 0x100 + b.toNat) : decode v (.stepWord w) = .ok (op.instr b) := by
  obtain ⟨-, -, hbyte, -⟩ := stepWordDecode v w
  exact hbyte b op hw hsel

/-! ### The seeking operations in a sound state (R63 to R65) -/

section
variable {s : State} {m : Fin 4} {b : Byte}

theorem selectByte_eq_seekMatch (hp : s.phase = .seeking m) (hm : m.val < 3) (hb : b = hdr s.cfg.magic m.val) :
    selectByte s.view b = some .seekMatch := by
  rw [selectByte_of_seeking hp, State.view_expected s m hp, if_pos hb, if_neg (Nat.ne_of_lt hm)]

theorem selectByte_eq_seekAccept (hp : s.phase = .seeking 3) (hb : b = hdr s.cfg.magic 3) :
    selectByte s.view b = some .seekAccept := by
  rw [selectByte_of_seeking hp, if_pos (hb.trans (State.view_expected s 3 hp).symm)]
  rfl

theorem selectByte_eq_seekMismatch (hp : s.phase = .seeking m) (hb : b ≠ hdr s.cfg.magic m.val) :
    selectByte s.view b = some .seekMismatch := by
  rw [selectByte_of_seeking hp, State.view_expected s m hp, if_neg hb]

theorem exec_seekMatch_of_sound (hs : s.Sound) (hp : s.phase = .seeking m) (hm : m.val < 3)
    (hb : b = hdr s.cfg.magic m.val) :
    exec (.seekMatch b) s = .next (s.afterByte (.seeking (m + 1)) (s.buf.write m.val b) Outputs.none) := by
  have hsel := selectByte_selectedIn (selectByte_eq_seekMatch hp hm hb)
  obtain ⟨t, ht⟩ := exec_byteOp_of_sound hs hsel
  obtain ⟨-, m', hp', -, -, -, rfl⟩ := execSeekMatch_next ht
  obtain rfl : m = m' := Phase.seeking.inj (hp.symm.trans hp')
  exact ht

theorem exec_seekAccept_of_sound (hs : s.Sound) (hp : s.phase = .seeking 3) (hb : b = hdr s.cfg.magic 3) :
    exec (.seekAccept b) s = .next (s.afterByte (.filling (s.n - 4)) (s.buf.write 3 b) Outputs.none) := by
  have hsel := selectByte_selectedIn (selectByte_eq_seekAccept hp hb)
  obtain ⟨t, ht⟩ := exec_byteOp_of_sound hs hsel
  obtain ⟨-, -, -, rfl⟩ := execSeekAccept_next ht
  exact ht

theorem exec_seekMismatch_of_sound (hs : s.Sound) (hp : s.phase = .seeking m) (hb : b ≠ hdr s.cfg.magic m.val) :
    exec (.seekMismatch b) s = .next (s.afterByte (.seeking 0) s.buf
      { events := [], diags := [.headerMismatch m], decoded := none }) := by
  have hsel := selectByte_selectedIn (selectByte_eq_seekMismatch hp hb)
  obtain ⟨t, ht⟩ := exec_byteOp_of_sound hs hsel
  obtain ⟨-, m', hp', -, rfl⟩ := execSeekMismatch_next ht
  obtain rfl : m = m' := Phase.seeking.inj (hp.symm.trans hp')
  exact ht

end

/-- Writing the next header byte behind the header prefix makes it one longer (R22). -/
theorem State.HeaderPrefix.write {s t : State} {k : Nat} {b : Byte} (h : s.HeaderPrefix k) (hw : s.buf.wf s.n = true)
    (hb : b = hdr s.cfg.magic k) (hbuf : t.buf = s.buf.write k b) (hcfg : t.cfg = s.cfg) : t.HeaderPrefix (k + 1) := by
  intro i hi
  rw [hbuf, hcfg, Memory.read_write hw]
  split
  case isTrue hik => rw [hik, hb]
  case isFalse hik => exact h i (by omega)

/-- Before the fourth byte the count of matched bytes does not wrap. -/
theorem val_succ_of_lt_three {m : Fin 4} (hm : m.val < 3) : (m + 1).val = m.val + 1 :=
  Fin.val_add_one_of_lt (Fin.lt_def.mpr hm)

/-- Settles O21: the byte selects SEEK_MATCH, and the clauses read off the fields of the state it leaves. -/
theorem seekMatchEffect : Obligations.SeekMatchEffect := by
  intro s m b hs hp hm hb
  have hval := val_succ_of_lt_three hm
  have hphase := State.afterByte_phase s (.seeking (m + 1)) (s.buf.write m.val b) Outputs.none
  have hP := State.PHASE_of_seeking hphase
  obtain ⟨hS, -, hM, -⟩ := signals_of_seeking hphase
  refine ⟨decode_of_toNat_eq (selectByte_eq_seekMatch hp hm hb), _, exec_seekMatch_of_sound hs hp hm hb, ?phase, hS,
    hval ▸ hM, fun i => Memory.read_write hs.bufWf m.val i b, fun h => h.write hs.bufWf hb rfl rfl,
    rfl, rfl, rfl, rfl⟩
  case phase =>
    rw [hP, State.PHASE_of_seeking hp]
    omega

/-- Settles O22: the byte selects SEEK_ACCEPT, and the clauses read off the fields of the state it leaves; `N >= 5`
makes its phase positive and puts the write pointer at `N - (N - 4) = 4`. -/
theorem seekAcceptEffect : Obligations.SeekAcceptEffect := by
  intro s b hs hp hb
  have hN : 5 ≤ s.n := Cfg.five_le_of_admitted hs.admitted
  have hNint : (s.n : Int) = s.cfg.frameSize := Cfg.n_eq_of_admitted hs.admitted
  have hexec := exec_seekAccept_of_sound hs hp hb
  have hsound := exec_byteOp_keeps_sound (op := .seekAccept) hs hexec
  have hphase := State.afterByte_phase s (.filling (s.n - 4)) (s.buf.write 3 b) Outputs.none
  have hP := State.PHASE_of_filling hphase
  obtain ⟨-, hF, -, hR⟩ := signals_of_filling hphase (by omega)
  obtain ⟨k, hk, -⟩ := State.writeIndex_of_sound hsound
  obtain ⟨-, hkN⟩ := writeIndex_filling hphase hk
  rw [State.afterByte_n] at hkN
  obtain rfl : k = 4 := by omega
  exact ⟨decode_of_toNat_eq (selectByte_eq_seekAccept hp hb), _, hexec, by omega, by omega, hF, hR, hk,
    fun i => Memory.read_write hs.bufWf 3 i b, fun h => h.write hs.bufWf hb rfl rfl, rfl, rfl, rfl, rfl⟩

/-- Settles O23: the byte selects SEEK_MISMATCH, and the clauses read off the fields of the state it leaves. -/
theorem seekMismatchEffect : Obligations.SeekMismatchEffect := by
  intro s m b hs hp hb
  have hphase := State.afterByte_phase s (.seeking 0) s.buf
    { events := [], diags := [.headerMismatch m], decoded := none }
  obtain ⟨hS, -, hM, -⟩ := signals_of_seeking hphase
  exact ⟨decode_of_toNat_eq (selectByte_eq_seekMismatch hp hb), _, exec_seekMismatch_of_sound hs hp hb,
    State.PHASE_of_seeking hphase, hS, hM, rfl, rfl, rfl, rfl, rfl⟩

/-! ### `ingest` of a stream in parts (R78) -/

theorem State.prependOut_prependOut (o o' : Outputs) (s : State) :
    (s.prependOut o).prependOut o' = s.prependOut (o'.append o) := by
  simp only [State.prependOut, Outputs.append, List.append_assoc]

/-- The outputs of the step before do not count (R27). -/
theorem byteStep_clearOut (b : Byte) (s : State) : byteStep b s.clearOut = byteStep b s := rfl

theorem ingest_clearOut (bytes : List Byte) (s : State) : ingest bytes s.clearOut = ingest bytes s := by
  cases bytes with
  | nil => rfl
  | cons b rest => rw [ingest, ingest, byteStep_clearOut]

/-- If the first part of a stream and then the second answer, so does the whole, with the outputs joined. -/
theorem ingest_append_of_next {xs ys : List Byte} {s t u : State} (hx : ingest xs s = .next t)
    (hy : ingest ys t = .next u) : ingest (xs ++ ys) s = .next (u.prependOut t.out) := by
  induction xs generalizing s t with
  | nil =>
    cases hx
    rw [ingest_clearOut] at hy
    exact hy
  | cons b rest ih =>
    obtain ⟨s1, s2, h1, h2, rfl⟩ := ingest_cons_next.mp hx
    have hy2 : ingest ys s2 = .next u := by
      rw [← ingest_clearOut] at hy ⊢
      exact hy
    have hrest := ih h2 hy2
    exact ingest_cons_next.mpr ⟨s1, _, h1, hrest, (State.prependOut_prependOut ..).symm⟩

theorem ingest_singleton {b : Byte} {s t : State} (h : byteStep b s = .next t) :
    ingest [b] s = .next (t.clearOut.prependOut t.out) :=
  ingest_cons_next.mpr ⟨t, t.clearOut, h, ingest_nil t, rfl⟩

/-- One more byte of a stream is the operation it selects in the state reached. -/
theorem ingest_concat_of_exec {op : ByteOp} {bytes : List Byte} {b : Byte} {s t u : State}
    (ht : ingest bytes s = .next t) (hsel : selectByte t.view b = some op) (hu : exec (op.instr b) t = .next u) :
    ingest (bytes ++ [b]) s = .next ((u.clearOut.prependOut u.out).prependOut t.out) :=
  ingest_append_of_next ht (ingest_singleton ((byteStep_eq_exec hsel).trans hu))

/-- In a sound state a chunk is its `ingest`. -/
theorem exec_chunk_of_ingest {bytes : List Byte} {s t : State} (hs : s.Sound) (h : ingest bytes s = .next t) :
    exec (.chunk bytes) s = .next t :=
  execChunk_next.mpr ⟨hs.admitted, h⟩

/-! ### Streams that end while seeking (R65, R66) -/

/-- From `s` the bytes are taken, and the block then seeks with `m` bytes matched, no event emitted and the diagnostics
`ds`. -/
def State.SeeksTo (s : State) (bytes : List Byte) (m : Fin 4) (ds : List Diag) : Prop :=
  ∃ t, ingest bytes s = .next t ∧ t.Sound ∧ t.cfg = s.cfg ∧ t.phase = .seeking m ∧ t.out.events = [] ∧
    t.out.diags = ds

section
variable {s : State} {bytes : List Byte} {m : Fin 4} {b : Byte} {ds : List Diag}

theorem State.SeeksTo.nil (hs : s.Sound) (hp : s.phase = .seeking m) : s.SeeksTo [] m [] :=
  ⟨s.clearOut, ingest_nil s, ⟨hs.admitted, hs.bufWf, hs.phaseLegal⟩, rfl, hp, rfl, rfl⟩

theorem State.SeeksTo.concat_match (h : s.SeeksTo bytes m ds) (hm : m.val < 3) (hb : b = hdr s.cfg.magic m.val) :
    s.SeeksTo (bytes ++ [b]) (m + 1) ds := by
  obtain ⟨t, ht, hsound, hcfg, hp, hev, hds⟩ := h
  rw [← hcfg] at hb
  have hexec := exec_seekMatch_of_sound hsound hp hm hb
  have hu := exec_byteOp_keeps_sound (op := .seekMatch) hsound hexec
  exact ⟨_, ingest_concat_of_exec ht (selectByte_eq_seekMatch hp hm hb) hexec,
    ⟨hu.admitted, hu.bufWf, hu.phaseLegal⟩, hcfg, rfl, by simp [hev], by simp [hds]⟩

theorem State.SeeksTo.concat_mismatch (h : s.SeeksTo bytes m ds) (hb : b ≠ hdr s.cfg.magic m.val) :
    s.SeeksTo (bytes ++ [b]) 0 (ds ++ [.headerMismatch m]) := by
  obtain ⟨t, ht, hsound, hcfg, hp, hev, hds⟩ := h
  rw [← hcfg] at hb
  have hexec := exec_seekMismatch_of_sound hsound hp hb
  have hu := exec_byteOp_keeps_sound (op := .seekMismatch) hsound hexec
  exact ⟨_, ingest_concat_of_exec ht (selectByte_eq_seekMismatch hp hb) hexec,
    ⟨hu.admitted, hu.bufWf, hu.phaseLegal⟩, hcfg, rfl, by simp [hev], by simp [hds]⟩

/-- The fourth header byte starts the filling, with no event (R64). -/
theorem State.SeeksTo.concat_accept (h : s.SeeksTo bytes 3 ds) (hb : b = hdr s.cfg.magic 3) :
    ∃ t, ingest (bytes ++ [b]) s = .next t ∧ t.phase = .filling (s.n - 4) ∧ t.out.events = [] := by
  obtain ⟨t, ht, hsound, hcfg, hp, hev, -⟩ := h
  have hn : t.n = s.n := congrArg Cfg.n hcfg
  rw [← hcfg] at hb
  have hexec := exec_seekAccept_of_sound hsound hp hb
  exact ⟨_, ingest_concat_of_exec ht (selectByte_eq_seekAccept hp hb) hexec, by simp [hn], by simp [hev]⟩

theorem State.SeeksTo.chunk (hs : s.Sound) (h : s.SeeksTo bytes m ds) :
    ∃ t, exec (.chunk bytes) s = .next t ∧ t.phase = .seeking m ∧ t.SEEKING = true ∧ t.out.events = [] ∧
      t.out.diags = ds := by
  obtain ⟨t, ht, -, -, hp, hev, hds⟩ := h
  exact ⟨t, exec_chunk_of_ingest hs ht, hp, (signals_of_seeking hp).1, hev, hds⟩

end

/-- The first stream of R66: `11 11 22 33 44` against the header `11 22 33 44` mismatches at every byte from the second
on. -/
theorem seeksTo_take_11_11_22_33_44 {s : State} (hs : s.Sound) (hp : s.phase = .seeking 0)
    (hmagic : s.cfg.magic = 0x44332211#32) (j : Nat) :
    ∃ m, s.SeeksTo (([0x11#8, 0x11#8, 0x22#8, 0x33#8, 0x44#8] : List Byte).take j) m
      ([.headerMismatch 1, .headerMismatch 0, .headerMismatch 0, .headerMismatch 0].take (j - 1)) := by
  have h0 : s.SeeksTo [] 0 [] := .nil hs hp
  have h1 := h0.concat_match (b := 0x11#8) (by decide) (by rw [hmagic]; decide)
  have h2 := h1.concat_mismatch (b := 0x11#8) (by rw [hmagic]; decide)
  have h3 := h2.concat_mismatch (b := 0x22#8) (by rw [hmagic]; decide)
  have h4 := h3.concat_mismatch (b := 0x33#8) (by rw [hmagic]; decide)
  have h5 := h4.concat_mismatch (b := 0x44#8) (by rw [hmagic]; decide)
  match j with
  | 0 => exact ⟨_, h0⟩
  | 1 => exact ⟨_, h1⟩
  | 2 => exact ⟨_, h2⟩
  | 3 => exact ⟨_, h3⟩
  | 4 => exact ⟨_, h4⟩
  | k + 5 => exact ⟨_, by simpa using h5⟩

/-- The second stream of R66: `41 42 41 42 41 43` against the header `41 42 41 43` mismatches at its fourth byte and at
its last. -/
theorem seeksTo_take_41_42_41_42_41_43 {s : State} (hs : s.Sound) (hp : s.phase = .seeking 0)
    (hmagic : s.cfg.magic = 0x43414241#32) (j : Nat) :
    ∃ m ds, s.SeeksTo (([0x41#8, 0x42#8, 0x41#8, 0x42#8, 0x41#8, 0x43#8] : List Byte).take j) m ds := by
  have h0 : s.SeeksTo [] 0 [] := .nil hs hp
  have h1 := h0.concat_match (b := 0x41#8) (by decide) (by rw [hmagic]; decide)
  have h2 := h1.concat_match (b := 0x42#8) (by decide) (by rw [hmagic]; decide)
  have h3 := h2.concat_match (b := 0x41#8) (by decide) (by rw [hmagic]; decide)
  have h4 := h3.concat_mismatch (b := 0x42#8) (by rw [hmagic]; decide)
  have h5 := h4.concat_match (b := 0x41#8) (by decide) (by rw [hmagic]; decide)
  have h6 := h5.concat_mismatch (b := 0x43#8) (by rw [hmagic]; decide)
  match j with
  | 0 => exact ⟨_, _, h0⟩
  | 1 => exact ⟨_, _, h1⟩
  | 2 => exact ⟨_, _, h2⟩
  | 3 => exact ⟨_, _, h3⟩
  | 4 => exact ⟨_, _, h4⟩
  | 5 => exact ⟨_, _, h5⟩
  | k + 6 => exact ⟨_, _, by simpa using h6⟩

/-- Settles O24: after every prefix of the two streams the block seeks; a mismatch restarts with nothing matched,
whatever its byte; a uniform header has the same byte at every place. -/
theorem noRetry : Obligations.NoRetry := by
  refine ⟨fun s j hs hp hmagic => ?_, fun s j hs hp hmagic => ?_, fun s m b hs hp hb => ?_,
    fun magic h b m huniform hm hb => ?_⟩
  · obtain ⟨m, hseek⟩ := seeksTo_take_11_11_22_33_44 hs hp hmagic j
    obtain ⟨t, ht, -, hS, hev, hds⟩ := hseek.chunk hs
    exact ⟨t, ht, hS, hev, hds⟩
  · obtain ⟨m, ds, hseek⟩ := seeksTo_take_41_42_41_42_41_43 hs hp hmagic j
    obtain ⟨t, ht, -, hS, hev, -⟩ := hseek.chunk hs
    exact ⟨t, ht, hS, hev⟩
  · obtain ⟨t, ht, hp', -⟩ := ((State.SeeksTo.nil hs hp).concat_mismatch hb).chunk hs
    exact ⟨t, ht, hp'⟩
  · rw [huniform 0 (by decide), ← huniform m hm]
    exact hb

/-! ### Runs of the header byte in a stream (R67) -/

section
variable {h b : Byte} {xs : List Byte}

@[simp] theorem trailingRun_concat_self : trailingRun h (xs ++ [h]) = trailingRun h xs + 1 := by
  simp [trailingRun]

theorem trailingRun_concat_of_ne (hb : b ≠ h) : trailingRun h (xs ++ [b]) = 0 := by
  simp [trailingRun, hb]

theorem exists_eq_append_replicate (h : Byte) (xs : List Byte) :
    ∃ ys, xs = ys ++ List.replicate (trailingRun h xs) h := by
  induction xs using List.reverseRecOn with
  | nil => exact ⟨[], rfl⟩
  | append_singleton xs b ih =>
    by_cases hb : b = h
    · obtain ⟨ys, hys⟩ := ih
      refine ⟨ys, ?_⟩
      rw [hb, trailingRun_concat_self, List.replicate_succ', ← List.append_assoc, ← hys]
    · exact ⟨xs ++ [b], by simp [trailingRun_concat_of_ne hb]⟩

/-- A stream without four `h` in a row ends in fewer than four. -/
theorem trailingRun_lt_four (hrun : ∀ i, ¬ RunAt h xs i) : trailingRun h xs < 4 := by
  by_contra hge
  obtain ⟨ys, hys⟩ := exists_eq_append_replicate h xs
  generalize trailingRun h xs = n at hge hys
  subst hys
  refine hrun (ys.length + (n - 4)) fun k hk => ?_
  rw [List.getElem?_append_right (by omega), List.getElem?_replicate_of_lt (by omega)]

theorem RunAt.of_prefix {ys : List Byte} {i : Nat} (hrun : RunAt h xs i) (hxs : xs <+: ys) : RunAt h ys i := by
  obtain ⟨zs, rfl⟩ := hxs
  intro k hk
  obtain ⟨hlt, -⟩ := List.getElem?_eq_some_iff.mp (hrun k hk)
  rw [List.getElem?_append_left hlt]
  exact hrun k hk

/-- Through a run, one more byte of the stream is one more `h`. -/
theorem RunAt.take_succ {i k : Nat} (hrun : RunAt h xs i) (hk : k < 4) :
    xs.take (i + k + 1) = xs.take (i + k) ++ [h] := by
  rw [List.take_add_one, hrun k hk]
  rfl

/-- A prefix that ends before the first run does holds no run. -/
theorem FirstRunAt.not_runAt_take {i j : Nat} (hfirst : FirstRunAt h xs i) (hj : j < i + 4) (k : Nat) :
    ¬ RunAt h (xs.take j) k := by
  intro hrun
  obtain ⟨hlt, -⟩ := List.getElem?_eq_some_iff.mp (hrun 3 (by decide))
  rw [List.length_take] at hlt
  exact hfirst.2 k (by omega) (hrun.of_prefix (List.take_prefix j xs))

end

/-- With a uniform header the count of matched bytes is the run of `h` at the end of the stream (R67): `h` makes both
one longer, and any other byte ends both. -/
theorem exists_seeksTo_trailingRun {s : State} {h : Byte} (hs : s.Sound) (hp : s.phase = .seeking 0)
    (huniform : UniformMagic s.cfg.magic h) {stream : List Byte} (hrun : ∀ i, ¬ RunAt h stream i) :
    ∃ m ds, s.SeeksTo stream m ds ∧ m.val = trailingRun h stream := by
  induction stream using List.reverseRecOn with
  | nil => exact ⟨0, [], .nil hs hp, rfl⟩
  | append_singleton xs b ih =>
    obtain ⟨m, ds, hseek, hm⟩ := ih fun i hi => hrun i (hi.of_prefix (List.prefix_append xs [b]))
    have hhdr : hdr s.cfg.magic m.val = h := huniform m.val m.isLt
    by_cases hb : b = h
    · subst hb
      have hlt := trailingRun_lt_four hrun
      rw [trailingRun_concat_self] at hlt ⊢
      have hm3 : m.val < 3 := by omega
      exact ⟨m + 1, ds, hseek.concat_match hm3 hhdr.symm, by rw [val_succ_of_lt_three hm3, hm]⟩
    · exact ⟨0, _, hseek.concat_mismatch (hhdr ▸ hb), (trailingRun_concat_of_ne hb).symm⟩

/-- With a uniform header, three bytes into the first run three bytes are matched. -/
theorem exists_seeksTo_three {s : State} {h : Byte} (hs : s.Sound) (hp : s.phase = .seeking 0)
    (huniform : UniformMagic s.cfg.magic h) {stream : List Byte} {i : Nat} (hfirst : FirstRunAt h stream i) :
    ∃ ds, s.SeeksTo (stream.take (i + 3)) 3 ds := by
  have hnone := hfirst.not_runAt_take (j := i + 3) (by omega)
  obtain ⟨m, ds, hseek, hm⟩ := exists_seeksTo_trailingRun hs hp huniform hnone
  have htail : trailingRun h (stream.take (i + 3)) = trailingRun h (stream.take i) + 3 := by
    rw [hfirst.1.take_succ (k := 2) (by decide), hfirst.1.take_succ (k := 1) (by decide),
      hfirst.1.take_succ (k := 0) (by decide)]
    simp only [trailingRun_concat_self, Nat.add_zero]
  obtain rfl : m = 3 := Fin.ext (show m.val = 3 by omega)
  exact ⟨ds, hseek⟩

/-- Settles O25: before the end of the first run the count of matched bytes is the run of `h` at the end
(`exists_seeksTo_trailingRun`), and the run's fourth byte is accepted. -/
theorem uniformSeekEnds : Obligations.UniformSeekEnds := by
  intro s h stream hs hp huniform
  refine ⟨fun hrun => ?_, fun i hfirst => ⟨?_, fun j hj => ?_⟩⟩
  · obtain ⟨m, ds, hseek, hm⟩ := exists_seeksTo_trailingRun hs hp huniform hrun
    obtain ⟨t, ht, hp', -, hev, -⟩ := hseek.chunk hs
    exact ⟨t, m, ht, hp', hm, hev⟩
  · obtain ⟨ds, hseek⟩ := exists_seeksTo_three hs hp huniform hfirst
    obtain ⟨t, ht, hp', hev⟩ := hseek.concat_accept (huniform 3 (by decide)).symm
    rw [← hfirst.1.take_succ (by decide)] at ht
    exact ⟨t, exec_chunk_of_ingest hs ht, hp', hev⟩
  · obtain ⟨m, ds, hseek, -⟩ := exists_seeksTo_trailingRun hs hp huniform (hfirst.not_runAt_take hj)
    obtain ⟨t, ht, -, hS, -⟩ := hseek.chunk hs
    exact ⟨t, ht, hS⟩

/-! ### A frame entered by SEEK_ACCEPT (R68) -/

section
variable {s : State} {b : Byte}

theorem selectByte_eq_fill {r : Nat} (hp : s.phase = .filling r) (hr : 2 ≤ r) : selectByte s.view b = some .fill :=
  selectByte_eq_some_iff.mpr (Instr.selectedIn_fill.mpr ⟨r, hp, hr⟩)

theorem selectByte_eq_fillReady (hp : s.phase = .filling 1) (hle : le s.buf.read 0 4 = s.cfg.magic.toNat) :
    selectByte s.view b = some .fillReady := by
  have hok : s.view.headerOk = true := decide_eq_true ((headerValue_eq_iff ..).mpr hle)
  exact selectByte_eq_some_iff.mpr (Instr.selectedIn_fillReady.mpr ⟨hp, hok⟩)

theorem exec_fill_of_sound {r : Nat} (hs : s.Sound) (hp : s.phase = .filling r) (hr : 2 ≤ r) :
    exec (.fill b) s = .next (s.afterByte (.filling (r - 1)) (s.buf.write (s.n - r) b) Outputs.none) := by
  have hsel := selectByte_selectedIn (selectByte_eq_fill (b := b) hp hr)
  obtain ⟨t, ht⟩ := exec_byteOp_of_sound hs hsel
  obtain ⟨-, r', hp', -, -, rfl⟩ := execFill_next ht
  obtain rfl : r = r' := Phase.filling.inj (hp.symm.trans hp')
  exact ht

theorem exec_fillReady_of_sound (hs : s.Sound) (hp : s.phase = .filling 1)
    (hle : le s.buf.read 0 4 = s.cfg.magic.toNat) :
    exec (.fillReady b) s = .next (s.afterByte (rearmPhase s.cfg) (s.buf.write (s.n - 1) b)
      { events := [.frameReady ((s.buf.write (s.n - 1) b).snapshot s.n)], diags := [], decoded := none }) := by
  have hsel := selectByte_selectedIn (selectByte_eq_fillReady (b := b) hp hle)
  obtain ⟨t, ht⟩ := exec_byteOp_of_sound hs hsel
  obtain ⟨-, -, -, rfl⟩ := execFillReady_next ht
  exact ht

end

/-- The bytes up to a written index are those before it and the byte written. -/
theorem Memory.snapshot_write_succ {n : Nat} {m : Memory} (hw : m.wf n = true) (k : Nat) (b : Byte) :
    (m.write k b).snapshot (k + 1) = m.snapshot k ++ [b] := by
  have hbefore : (List.range k).map (m.write k b).read = (List.range k).map m.read :=
    List.map_congr_left fun i hi => Memory.read_write_ne (Nat.ne_of_lt (List.mem_range.mp hi)) b m
  rw [Memory.snapshot, List.range_succ, List.map_append, hbefore, List.map_singleton, Memory.read_write_self hw]
  rfl

/-- A write behind the header prefix leaves it alone. -/
theorem State.HeaderPrefix.afterByte_write {s : State} {k i : Nat} (h : s.HeaderPrefix k) (hi : k ≤ i) (p : Phase)
    (b : Byte) (o : Outputs) : (s.afterByte p (s.buf.write i b) o).HeaderPrefix k :=
  fun j hj => (Memory.read_write_ne (by omega) b s.buf).trans (h j hj)

theorem State.HeaderPrefix.snapshot_four {s : State} (h : s.HeaderPrefix 4) :
    s.buf.snapshot 4 = headerBytes s.cfg.magic :=
  List.map_congr_left fun i hi => h i (List.mem_range.mp hi)

/-- With the header in `BUF`, the missing bytes complete a frame of the bytes already written and them, in stream order:
one event, no diagnostic (R69, R70). -/
theorem ingest_of_headerPrefix {payload : List Byte} {s : State} {r : Nat} (hs : s.Sound) (hh : s.HeaderPrefix 4)
    (hp : s.phase = .filling r) (hr : payload.length = r) (hlen : r + 4 ≤ s.n) :
    ∃ t, ingest payload s = .next t ∧ t.out.events = [.frameReady (s.buf.snapshot (s.n - r) ++ payload)] ∧
      t.out.diags = [] ∧ t.phase = rearmPhase s.cfg := by
  induction payload generalizing s r with
  | nil =>
    obtain ⟨hr1, -⟩ := legal_filling.mp (hp ▸ hs.phaseLegal)
    exact absurd hr (Nat.ne_of_lt hr1)
  | cons b rest ih =>
    have hsnap := Memory.snapshot_write_succ hs.bufWf (s.n - r) b
    cases rest with
    | nil =>
      obtain rfl : r = 1 := hr.symm
      have hle := (le_read_eq_magic_iff s.buf s.cfg.magic).mpr hh
      have hexec := exec_fillReady_of_sound (b := b) hs hp hle
      have hstep := (byteStep_eq_exec (selectByte_eq_fillReady hp hle)).trans hexec
      rw [Nat.sub_add_cancel (by omega)] at hsnap
      exact ⟨_, ingest_singleton hstep, by simp [hsnap], rfl, rfl⟩
    | cons c rest =>
      have hr2 : 2 ≤ r := by simp only [List.length_cons] at hr; omega
      have hexec := exec_fill_of_sound (b := b) hs hp hr2
      have hstep := (byteStep_eq_exec (selectByte_eq_fill hp hr2)).trans hexec
      have hsound := exec_byteOp_keeps_sound (op := .fill) hs hexec
      have hheader := hh.afterByte_write (i := s.n - r) (by omega) (.filling (r - 1)) b Outputs.none
      have hindex : s.n - (r - 1) = s.n - r + 1 := by omega
      obtain ⟨t, ht, hev, hds, hp'⟩ := ih hsound hheader rfl (Nat.eq_sub_of_add_eq hr)
        (show r - 1 + 4 ≤ s.n by omega)
      rw [State.afterByte_n, State.afterByte_buf, hindex, hsnap] at hev
      exact ⟨_, ingest_cons_next.mpr ⟨_, t, hstep, ht, rfl⟩, by simp [hev], by simp [hds], hp'⟩

/-- Settles O26: the accepted byte completes the header in `BUF`, and the payload is what is missing. -/
theorem acceptedFrameValidates : Obligations.AcceptedFrameValidates := by
  intro s payload hs hp hh hlen
  have hexec := exec_seekAccept_of_sound hs hp rfl
  have hstep := (byteStep_eq_exec (selectByte_eq_seekAccept hp rfl)).trans hexec
  have hsound := exec_byteOp_keeps_sound (op := .seekAccept) hs hexec
  have hheader := hh.write hs.bufWf rfl (State.afterByte_buf s (.filling (s.n - 4)) _ Outputs.none) rfl
  obtain ⟨t, ht, hev, hds, hp'⟩ := ingest_of_headerPrefix hsound hheader rfl (Nat.eq_sub_of_add_eq hlen)
    (show s.n - 4 + 4 ≤ s.n by omega)
  refine ⟨_, exec_chunk_of_ingest hs (ingest_cons_next.mpr ⟨_, t, hstep, ht, rfl⟩), ?_, ?_, ?_⟩
  · have hn : s.n - (s.n - 4) = 4 := by omega
    rw [State.afterByte_n, hn, hheader.snapshot_four] at hev
    simp [hev]
  · simp [hds]
  · exact hp'

end Sys2Proof.Machine

/-! PROOFS. The statements of 41_fill.md: the three filling operations (R69 to R71), the strict mode (R72), the byte's
value while filling (R73), and a re-armed candidate (R74). -/

namespace Sys2Proof.Machine

/-! ### The completing operations in a sound state (R70 to R72) -/

theorem rearmPhase_of_strict {c : Cfg} (h : c.strict = true) : rearmPhase c = .seeking 0 := if_pos h

theorem rearmPhase_of_compatible {c : Cfg} (h : c.strict = false) : rearmPhase c = .filling c.n :=
  if_neg (ne_true_of_eq_false h)

theorem State.writeIndex_of_filling {s : State} {r : Nat} (hp : s.phase = .filling r) (hr : r ≤ s.n) :
    s.writeIndex = some (s.n - r) := by
  simp only [State.writeIndex, hp, if_pos hr]

/-- In `Filling(N)` a whole frame is missing and the next byte goes to the front of `BUF` (R70). -/
theorem State.signals_of_rearmed {s : State} (hp : s.phase = .filling s.n) (hn : 1 ≤ s.n) :
    s.FILLING = true ∧ s.REMAINING = some s.n ∧ s.writeIndex = some 0 := by
  obtain ⟨-, hF, -, hR⟩ := signals_of_filling hp hn
  exact ⟨hF, hR, (State.writeIndex_of_filling hp le_rfl).trans (congrArg some (Nat.sub_self s.n))⟩

section
variable {s : State} {b : Byte}

theorem selectByte_eq_fillReject (hp : s.phase = .filling 1) (hle : le s.buf.read 0 4 ≠ s.cfg.magic.toNat) :
    selectByte s.view b = some .fillReject := by
  have hbad : s.view.headerOk = false := decide_eq_false (mt (headerValue_eq_iff ..).mp hle)
  exact selectByte_eq_some_iff.mpr (Instr.selectedIn_fillReject.mpr ⟨hp, hbad⟩)

theorem exec_fillReject_of_sound (hs : s.Sound) (hp : s.phase = .filling 1)
    (hle : le s.buf.read 0 4 ≠ s.cfg.magic.toNat) :
    exec (.fillReject b) s = .next (s.afterByte (.seeking 0) (s.buf.write (s.n - 1) b)
      { events := [.frameRejected .badHeader], diags := [], decoded := none }) := by
  have hsel := selectByte_selectedIn (selectByte_eq_fillReject (b := b) hp hle)
  obtain ⟨t, ht⟩ := exec_byteOp_of_sound hs hsel
  obtain ⟨-, -, -, rfl⟩ := execFillReject_next ht
  exact ht

end

/-- In strict mode a reachable candidate has the header in `BUF` (R75). -/
theorem State.Inv.strict_eq_false_of_badHeader {s : State} {r : Nat} (hinv : s.Inv) (hp : s.phase = .filling r)
    (hle : le s.buf.read 0 4 ≠ s.cfg.magic.toNat) : s.cfg.strict = false := by
  by_contra hstrict
  obtain ⟨-, hh⟩ := hinv.strictHeader r (eq_true_of_ne_false hstrict) hp
  exact hle ((le_read_eq_magic_iff ..).mpr hh)

/-- Settles O27: the byte selects FILL, and the clauses read off the fields of the state it leaves. -/
theorem fillEffect : Obligations.FillEffect := by
  intro s r b hs hp hr
  have hphase := State.afterByte_phase s (.filling (r - 1)) (s.buf.write (s.n - r) b) Outputs.none
  have hP := State.PHASE_of_filling hphase
  obtain ⟨-, hF, -, hR⟩ := signals_of_filling hphase (by omega)
  refine ⟨decode_of_toNat_eq (selectByte_eq_fill hp hr), _, exec_fill_of_sound hs hp hr, ?phase, hF, hR,
    fun i => Memory.read_write hs.bufWf (s.n - r) i b, rfl, rfl, rfl, rfl⟩
  case phase =>
    rw [hP, State.PHASE_of_filling hp]
    omega

/-- Settles O28: the byte selects FILL_READY; its event copies the buffer it leaves, and its phase is that of
`rearmPhase` in either mode. -/
theorem fillReadyEffect : Obligations.FillReadyEffect := by
  intro s b hs hp hle
  have hN : 5 ≤ s.n := Cfg.five_le_of_admitted hs.admitted
  have hNint : (s.n : Int) = s.cfg.frameSize := Cfg.n_eq_of_admitted hs.admitted
  refine ⟨decode_of_toNat_eq (selectByte_eq_fillReady hp hle), _, _, exec_fillReady_of_sound hs hp hle, ?phase,
    fun hstrict => ?rearmed, fun i => Memory.read_write hs.bufWf (s.n - 1) i b, rfl, Memory.length_snapshot ..,
    fun j => Memory.getElem?_snapshot _, rfl, rfl, rfl⟩
  case phase =>
    cases hstrict : s.cfg.strict with
    | true => exact State.PHASE_of_seeking (s := s.afterByte ..) (rearmPhase_of_strict hstrict)
    | false => exact (State.PHASE_of_filling (s := s.afterByte ..) (rearmPhase_of_compatible hstrict)).trans hNint
  case rearmed =>
    exact State.signals_of_rearmed (rearmPhase_of_compatible hstrict) (show 1 ≤ s.n by omega)

/-- Settles O29: the byte selects FILL_REJECT, and the clauses read off the fields of the state it leaves. -/
theorem fillRejectEffect : Obligations.FillRejectEffect := by
  intro s b hs hp hle
  have hphase := State.afterByte_phase s (.seeking 0) (s.buf.write (s.n - 1) b)
    { events := [.frameRejected .badHeader], diags := [], decoded := none }
  obtain ⟨hS, -, hM, -⟩ := signals_of_seeking hphase
  exact ⟨decode_of_toNat_eq (selectByte_eq_fillReject hp hle), _, exec_fillReject_of_sound hs hp hle,
    State.PHASE_of_seeking hphase, hS, hM, fun i => Memory.read_write hs.bufWf (s.n - 1) i b, rfl, rfl, rfl, rfl,
    fun hinv => hinv.strict_eq_false_of_badHeader hp hle⟩

/-! ### What the strict mode changes (R72) -/

section
variable {v : Bool}

@[simp] theorem State.withStrict_view (s : State) : (s.withStrict v).view = s.view := rfl

theorem onInstance_withStrict (s : State) {k k' : StepResult} (hk : k' = mapState (State.withStrict v) k) :
    onInstance (s.withStrict v) k' = mapState (State.withStrict v) (onInstance s k) := by
  have hconfig : (s.withStrict v).cfg.configError = s.cfg.configError := rfl
  rw [onInstance, onInstance, hconfig, hk]
  cases s.cfg.configError <;> rfl

theorem storeByte_withStrict (b : Byte) (s : State) :
    storeByte b (s.withStrict v) = mapState (State.withStrict v) (storeByte b s) := by
  have hi : (s.withStrict v).writeIndex = s.writeIndex := rfl
  rw [storeByte, storeByte, hi, State.withStrict_n]
  cases s.writeIndex with
  | none => rfl
  | some i => by_cases h : i < s.n <;> simp only [h, if_true, if_false] <;> rfl

/-- A body of a `BYTE` operation that does not depend on the mode makes an operation that does not. -/
theorem runByteOp_withStrict {body : State → StepResult}
    (hbody : ∀ s, body (s.withStrict v) = mapState (State.withStrict v) (body s)) (i : Instr) (s : State) :
    runByteOp i (s.withStrict v) body = mapState (State.withStrict v) (runByteOp i s body) := by
  refine onInstance_withStrict s ?_
  rw [State.withStrict_view, apply_ite (mapState (State.withStrict v)), ← hbody]
  rfl

/-- The same for a body that begins with the store of the byte. -/
theorem runByteOp_store_withStrict {rest : State → StepResult}
    (hrest : ∀ s, rest (s.withStrict v) = mapState (State.withStrict v) (rest s)) (i : Instr) (b : Byte) (s : State) :
    runByteOp i (s.withStrict v) (fun s => andThen (storeByte b s) rest) =
      mapState (State.withStrict v) (runByteOp i s fun s => andThen (storeByte b s) rest) := by
  refine runByteOp_withStrict (fun s => ?_) i s
  rw [storeByte_withStrict, andThen_mapState, mapState_andThen]
  exact congrArg _ (funext hrest)

/-- Only FILL_READY, and CHUNK with it, reads the mode (R72). -/
theorem exec_withStrict {i : Instr} (hready : ∀ b, i ≠ .fillReady b) (hchunk : ∀ bytes, i ≠ .chunk bytes) (s : State) :
    exec i (s.withStrict v) = mapState (State.withStrict v) (exec i s) := by
  cases i with
  | reset => exact onInstance_withStrict s rfl
  | idle => exact onInstance_withStrict s rfl
  | decode frame => exact onInstance_withStrict s rfl
  | seekMatch b =>
    refine runByteOp_store_withStrict (fun s => ?_) _ b s
    simp only [State.withStrict_phase]
    cases s.phase <;> rfl
  | seekAccept b => exact runByteOp_store_withStrict (fun _ => rfl) _ b s
  | seekMismatch b =>
    rw [exec, exec, execSeekMismatch, execSeekMismatch]
    refine runByteOp_withStrict (fun s => ?_) _ s
    simp only [State.withStrict_phase]
    cases s.phase <;> rfl
  | fill b =>
    refine runByteOp_store_withStrict (fun s => ?_) _ b s
    simp only [State.withStrict_phase]
    cases s.phase <;> rfl
  | fillReady b => exact absurd rfl (hready b)
  | fillReject b => exact runByteOp_store_withStrict (fun _ => rfl) _ b s
  | chunk bytes => exact absurd rfl (hchunk bytes)

theorem State.Sound.withStrict {s : State} (hs : s.Sound) : (s.withStrict v).Sound :=
  ⟨hs.admitted, hs.bufWf, hs.phaseLegal⟩

end

/-- Settles O30: the other operations commute with setting the mode (`exec_withStrict`); FILL_READY leaves the same
state in both modes but for `rearmPhase`. -/
theorem strictAffectsOnlyReady : Obligations.StrictAffectsOnlyReady :=
  ⟨fun _ s hready hchunk => exec_withStrict hready hchunk (s.withStrict false),
    fun _ _ hs hp hle => ⟨_, exec_fillReady_of_sound hs.withStrict hp hle, rfl,
      exec_fillReady_of_sound hs.withStrict hp hle⟩⟩

/-! ### The value of a byte while filling (R73) -/

/-- While filling, the next phase `p` is the same for every byte, which is stored at the write pointer and of which no
diagnostic tells. -/
theorem exists_byteStep_of_filling {s : State} {r : Nat} (hs : s.Sound) (hp : s.phase = .filling r) :
    ∃ p, (2 ≤ r → p = .filling (r - 1)) ∧ ∀ b, ∃ o,
      byteStep b s = .next (s.afterByte p (s.buf.write (s.n - r) b) o) ∧ o.diags = [] ∧ (2 ≤ r → o.events = []) := by
  obtain ⟨hr1, -⟩ := legal_filling.mp (hp ▸ hs.phaseLegal)
  by_cases hr : 2 ≤ r
  · exact ⟨_, fun _ => rfl, fun b =>
      ⟨_, (byteStep_eq_exec (selectByte_eq_fill hp hr)).trans (exec_fill_of_sound hs hp hr), rfl, fun _ => rfl⟩⟩
  obtain rfl : r = 1 := by omega
  by_cases hle : le s.buf.read 0 4 = s.cfg.magic.toNat
  · exact ⟨_, fun h => absurd h hr, fun b =>
      ⟨_, (byteStep_eq_exec (selectByte_eq_fillReady hp hle)).trans (exec_fillReady_of_sound hs hp hle), rfl,
        fun h => absurd h hr⟩⟩
  · exact ⟨_, fun h => absurd h hr, fun b =>
      ⟨_, (byteStep_eq_exec (selectByte_eq_fillReject hp hle)).trans (exec_fillReject_of_sound hs hp hle), rfl,
        fun h => absurd h hr⟩⟩

/-- Settles O31: the selection reads `PHASE` and the header alone, and the two bytes' steps differ in the byte stored
(`exists_byteStep_of_filling`). -/
theorem noScanWhileFilling : Obligations.NoScanWhileFilling := by
  intro s r b b' hs hp
  obtain ⟨hr, -⟩ := legal_filling.mp (hp ▸ hs.phaseLegal)
  obtain ⟨p, hnext, hstep⟩ := exists_byteStep_of_filling hs hp
  obtain ⟨o, hb, hds, hev⟩ := hstep b
  obtain ⟨o', hb', hds', -⟩ := hstep b'
  refine ⟨(selectByte_of_filling hp hr b).trans (selectByte_of_filling hp hr b').symm, _, _,
    exec_chunk_of_ingest hs (ingest_singleton hb), exec_chunk_of_ingest hs (ingest_singleton hb'), rfl,
    fun h => ⟨hnext h, by simp [hev h]⟩, fun i hi => ?_, by simp [hds], by simp [hds']⟩
  exact (Memory.read_write_ne hi b s.buf).trans (Memory.read_write_ne hi b' s.buf).symm

/-! ### A re-armed candidate (R74) -/

theorem Memory.take_snapshot {k n : Nat} (h : k ≤ n) (m : Memory) : (m.snapshot n).take k = m.snapshot k := by
  rw [Memory.snapshot, ← List.map_take, List.take_range, Nat.min_eq_left h, Memory.snapshot]

/-- The header check asks whether the first four bytes of `BUF` are the header's (R36). -/
theorem le_read_eq_magic_iff_snapshot (m : Memory) (magic : Word32) :
    le m.read 0 4 = magic.toNat ↔ m.snapshot 4 = headerBytes magic := by
  have hmap : m.snapshot 4 = headerBytes magic ↔ ∀ i ∈ List.range 4, m.read i = hdr magic i := List.map_inj_left
  simp only [le_read_eq_magic_iff, hmap, List.mem_range]

/-- From `s` the bytes are taken without any output, and stand at the front of `BUF` as a candidate not yet complete. -/
def State.FillsTo (s : State) (bytes : List Byte) : Prop :=
  ∃ t, ingest bytes s = .next t ∧ t.Sound ∧ t.cfg = s.cfg ∧ t.phase = .filling (s.n - bytes.length) ∧
    t.buf.snapshot bytes.length = bytes ∧ t.out.events = [] ∧ t.out.diags = []

section
variable {s : State} {bytes : List Byte} {b : Byte}

theorem State.FillsTo.nil (hs : s.Sound) (hp : s.phase = .filling s.n) : s.FillsTo [] :=
  ⟨s.clearOut, ingest_nil s, ⟨hs.admitted, hs.bufWf, hs.phaseLegal⟩, rfl, hp, rfl, rfl, rfl⟩

theorem State.FillsTo.concat (h : s.FillsTo bytes) (hlen : bytes.length + 1 < s.n) : s.FillsTo (bytes ++ [b]) := by
  obtain ⟨t, ht, hsound, hcfg, hp, hsnap, hev, hds⟩ := h
  have hn : t.n = s.n := congrArg Cfg.n hcfg
  have hindex : t.n - (s.n - bytes.length) = bytes.length := by omega
  have hr : 2 ≤ s.n - bytes.length := by omega
  have hexec := exec_fill_of_sound (b := b) hsound hp hr
  have hu := exec_byteOp_keeps_sound (op := .fill) hsound hexec
  rw [hindex] at hexec hu
  refine ⟨_, ingest_concat_of_exec ht (selectByte_eq_fill hp hr) hexec, ⟨hu.admitted, hu.bufWf, hu.phaseLegal⟩, hcfg,
    ?_, ?_, by simp [hev], by simp [hds]⟩
  · simp [Nat.sub_sub]
  · simp [Memory.snapshot_write_succ hsound.bufWf, hsnap]

/-- Every stretch of a re-armed candidate before its last byte is taken in silence, whatever its bytes. -/
theorem State.fillsTo_of_rearmed (hs : s.Sound) (hp : s.phase = .filling s.n) (hlen : bytes.length < s.n) :
    s.FillsTo bytes := by
  induction bytes using List.reverseRecOn with
  | nil => exact .nil hs hp
  | append_singleton bytes b ih =>
    rw [List.length_append, List.length_singleton] at hlen
    exact (ih (Nat.lt_of_succ_lt hlen)).concat hlen

/-- The state before a candidate's last byte: `Filling(1)`, with all bytes but the last in `BUF`, so that the check is
whether the candidate begins with the header. -/
theorem State.FillsTo.completing (h : s.FillsTo bytes) (hN : 5 ≤ s.n) (hlen : bytes.length + 1 = s.n) :
    ∃ t, ingest bytes s = .next t ∧ t.Sound ∧ t.cfg = s.cfg ∧ t.phase = .filling 1 ∧ t.out.events = [] ∧
      (∀ b, (t.buf.write (t.n - 1) b).snapshot t.n = bytes ++ [b]) ∧
      (le t.buf.read 0 4 = t.cfg.magic.toNat ↔ bytes.take 4 = headerBytes s.cfg.magic) := by
  obtain ⟨t, ht, hsound, hcfg, hp, hsnap, hev, -⟩ := h
  have hn : t.n = bytes.length + 1 := (congrArg Cfg.n hcfg).trans hlen.symm
  have hlast : s.n - bytes.length = 1 := by omega
  refine ⟨t, ht, hsound, hcfg, hp.trans (congrArg Phase.filling hlast), hev, fun b => ?_, ?_⟩
  · rw [hn, Nat.add_sub_cancel, Memory.snapshot_write_succ hsound.bufWf, hsnap]
  · have htake : bytes.take 4 = t.buf.snapshot 4 := by
      rw [← Memory.take_snapshot (show 4 ≤ bytes.length by omega), hsnap]
    rw [htake, ← hcfg, le_read_eq_magic_iff_snapshot]

end

/-- Settles O32: nothing is emitted before the last byte (`State.fillsTo_of_rearmed`), which completes the candidate in
`BUF`; the header check then selects FILL_READY or FILL_REJECT. -/
theorem rearmedFrame : Obligations.RearmedFrame := by
  intro s frame hs hstrict hp hlen
  have hN : 5 ≤ s.n := Cfg.five_le_of_admitted hs.admitted
  refine ⟨fun j hj => ?silent, ?last⟩
  case silent =>
    have hlenj : (frame.take j).length = j := List.length_take_of_le (by omega)
    obtain ⟨t, ht, -, -, hp', -, hev, hds⟩ := State.fillsTo_of_rearmed (bytes := frame.take j) hs hp (by omega)
    exact ⟨t, exec_chunk_of_ingest hs ht, hev, hds, hlenj ▸ hp'⟩
  case last =>
    obtain rfl | ⟨bytes, b, rfl⟩ := List.eq_nil_or_concat' frame
    · simp at hlen
      omega
    rw [List.length_append, List.length_singleton] at hlen
    obtain ⟨t, ht, hsound, hcfg, hp1, hev, hframe, hheader⟩ :=
      (State.fillsTo_of_rearmed (bytes := bytes) hs hp (by omega)).completing hN hlen
    rw [List.take_append_of_le_length (by omega)]
    refine ⟨fun hok => ?ready, fun hbad => ?reject⟩
    case ready =>
      have hle := hheader.mpr hok
      have hrearm : rearmPhase t.cfg = .filling s.n := hcfg ▸ rearmPhase_of_compatible hstrict
      exact ⟨_, exec_chunk_of_ingest hs (ingest_concat_of_exec ht (selectByte_eq_fillReady hp1 hle)
        (exec_fillReady_of_sound hsound hp1 hle)), by simp [hev, hframe], hrearm⟩
    case reject =>
      have hle := mt hheader.mp hbad
      exact ⟨_, exec_chunk_of_ingest hs (ingest_concat_of_exec ht (selectByte_eq_fillReject hp1 hle)
        (exec_fillReject_of_sound hsound hp1 hle)), by simp [hev], rfl⟩

end Sys2Proof.Machine

/-! PROOFS. The statements of 42_stream.md: IDLE and RESET (R76, R77), the chunk contract (R78 to R80), streams without
a header (R82), resync (R83) and the spacing of events (R84). -/

namespace Sys2Proof.Machine

/-! ### IDLE and RESET (R76, R77) -/

/-- A step that takes an `IDLE` word empties the outputs and consumes the word. -/
theorem step_of_idleWord {s : State} {w : StepWord} (ha : s.cfg.Admitted) (hw : w.toNat < 0x100)
    (rest : List PortInput) : step (s.withInput (.stepWord w :: rest)) = .next (s.clearOut.withInput rest) := by
  obtain ⟨-, hidle, -⟩ := stepWordDecode s.view w
  have hfetch : fetch (s.withInput (.stepWord w :: rest)) = .ok .idle := hidle hw
  rw [step, hfetch]
  exact onInstance_admitted ha _

theorem core_run_idleWords {s : State} {w : StepWord} (ha : s.cfg.Admitted) (hw : w.toNat < 0x100) (k : Nat) :
    Sys2Proof.core.run (k + 1) (s.withInput (List.replicate (k + 1) (.stepWord w))) =
      .next (s.clearOut.withInput []) := by
  induction k generalizing s with
  | zero => exact core_run_succ_of_step (step_of_idleWord ha hw []) 0
  | succ k ih => exact (core_run_succ_of_step (step_of_idleWord ha hw _) (k + 1)).trans (ih (s := s.clearOut) ha)

/-- Settles O35: IDLE leaves the state with empty outputs, and so does each of any number of `IDLE` words. -/
theorem idleEffect : Obligations.IdleEffect := by
  intro s ha
  refine ⟨fun w hw => ?_, s.clearOut, onInstance_admitted ha _, rfl, rfl, rfl, rfl, rfl, rfl,
    fun w k hw => core_run_idleWords ha hw k⟩
  obtain ⟨-, hidle, -⟩ := stepWordDecode s.view w
  exact hidle hw

/-- Settles O36: RESET leaves the initial state but for the coming inputs, and the bound on `N` lets that state be
created. -/
theorem resetEffect : Obligations.ResetEffect := by
  intro s ha
  have hp : (State.initial s.cfg).phase = .seeking 0 := State.initial_phase s.cfg
  obtain ⟨hS, -, hM, -⟩ := signals_of_seeking hp
  refine ⟨fun w hw => ?decode, _, onInstance_admitted ha _, State.PHASE_of_seeking hp, hS, hM, Memory.read_nil, rfl,
    rfl, rfl, rfl, fun nMax hmax => ?create⟩
  case decode =>
    obtain ⟨hreset, -⟩ := stepWordDecode s.view w
    exact hreset hw
  case create =>
    have hn : s.cfg.n ≤ nMax := by
      rw [← Cfg.n_eq_of_admitted ha] at hmax
      exact Int.ofNat_le.mp hmax
    rw [State.create, show s.cfg.configError = none from ha]
    exact if_pos hn

/-! ### What a `BYTE` step and a chunk leave unchanged (R78) -/

/-- A `BYTE` operation counts its byte, and touches neither `CFG` nor the coming inputs nor the decoder's port. -/
theorem exec_byteOp_eq_afterByte {op : ByteOp} {b : Byte} {s t : State} (h : exec (op.instr b) s = .next t) :
    s.cfg.Admitted ∧ ∃ p buf o, o.decoded = none ∧ t = s.afterByte p buf o := by
  cases op with
  | seekMatch =>
    obtain ⟨ha, m, -, -, -, -, rfl⟩ := execSeekMatch_next h
    exact ⟨ha, _, _, _, rfl, rfl⟩
  | seekAccept =>
    obtain ⟨ha, -, -, rfl⟩ := execSeekAccept_next h
    exact ⟨ha, _, _, _, rfl, rfl⟩
  | seekMismatch =>
    obtain ⟨ha, m, -, -, rfl⟩ := execSeekMismatch_next h
    exact ⟨ha, _, _, _, rfl, rfl⟩
  | fill =>
    obtain ⟨ha, r, -, -, -, rfl⟩ := execFill_next h
    exact ⟨ha, _, _, _, rfl, rfl⟩
  | fillReady =>
    obtain ⟨ha, -, -, rfl⟩ := execFillReady_next h
    exact ⟨ha, _, _, _, rfl, rfl⟩
  | fillReject =>
    obtain ⟨ha, -, -, rfl⟩ := execFillReject_next h
    exact ⟨ha, _, _, _, rfl, rfl⟩

theorem byteStep_eq_afterByte {b : Byte} {s t : State} (h : byteStep b s = .next t) :
    s.cfg.Admitted ∧ ∃ p buf o, o.decoded = none ∧ t = s.afterByte p buf o := by
  obtain ⟨op, -, hexec⟩ := byteStep_next h
  exact exec_byteOp_eq_afterByte hexec

theorem byteStep_n {b : Byte} {s t : State} (h : byteStep b s = .next t) : t.n = s.n := by
  obtain ⟨-, p, buf, o, -, rfl⟩ := byteStep_eq_afterByte h
  exact State.afterByte_n s p buf o

/-- The frame of a chunk: every byte is counted once (R33). -/
theorem ingest_frame {bytes : List Byte} {s t : State} (h : ingest bytes s = .next t) :
    t.cfg = s.cfg ∧ t.input = s.input ∧ t.pos = s.pos + bytes.length ∧ t.out.decoded = none := by
  induction bytes generalizing s t with
  | nil =>
    cases h
    exact ⟨rfl, rfl, rfl, rfl⟩
  | cons b rest ih =>
    obtain ⟨s1, s2, h1, h2, rfl⟩ := ingest_cons_next.mp h
    obtain ⟨-, p, buf, o, -, rfl⟩ := byteStep_eq_afterByte h1
    obtain ⟨hcfg, hinput, hpos, hdec⟩ := ih h2
    refine ⟨hcfg, hinput, ?_, hdec⟩
    rw [State.prependOut_pos, hpos, State.afterByte_pos, List.length_cons]
    omega

/-- What every `BYTE` step keeps, and does not depend on the outputs, a chunk keeps. -/
theorem ingest_keeps {P : State → Prop} (hout : ∀ s o, P s → P { s with out := o })
    (hstep : ∀ {b s t}, P s → byteStep b s = .next t → P t) {bytes : List Byte} {s t : State} (hs : P s)
    (h : ingest bytes s = .next t) : P t := by
  induction bytes generalizing s t with
  | nil =>
    cases h
    exact hout s _ hs
  | cons b rest ih =>
    obtain ⟨s1, s2, h1, h2, rfl⟩ := ingest_cons_next.mp h
    exact hout s2 _ (ih (hstep hs h1) h2)

theorem byteStep_keeps_sound {b : Byte} {s t : State} (hs : s.Sound) (h : byteStep b s = .next t) : t.Sound := by
  obtain ⟨op, -, hexec⟩ := byteStep_next h
  exact exec_byteOp_keeps_sound hs hexec

theorem ingest_keeps_sound {bytes : List Byte} {s t : State} (hs : s.Sound) (h : ingest bytes s = .next t) : t.Sound :=
  ingest_keeps (P := State.Sound) (fun _ _ hs => ⟨hs.admitted, hs.bufWf, hs.phaseLegal⟩) byteStep_keeps_sound hs h

/-! ### The chunk contract (R78, R79) -/

/-- The first byte's word, presented before anything else, is the first `BYTE` step of the chunk. -/
theorem byteStep_of_step {b : Byte} {s t : State} {w : StepWord} (hw : w.toNat = 0x100 + b.toNat)
    (h : step (s.withInput (.stepWord w :: s.input)) = .next t) : byteStep b s = .next t := by
  obtain rfl : w = byteWord b := BitVec.eq_of_toNat_eq (hw.trans (toNat_byteWord b).symm)
  rw [step_byteWord] at h
  exact h

/-- Settles O37: the recursion of `ingest`, whose first step is the step of the byte's word (`byteStep_of_step`); in a
sound state the chunk is taken to its end (`ingest_of_sound`), with the frame of `ingest_frame`. -/
theorem chunkEffect : Obligations.ChunkEffect := by
  refine ⟨fun s ha => onInstance_admitted ha _, fun s s1 s2 b rest w hw hstep hrest => ?cons, fun s bytes hs => ?sound⟩
  case cons =>
    have h1 := byteStep_of_step hw hstep
    obtain ⟨ha, -⟩ := byteStep_eq_afterByte h1
    obtain ⟨-, h2⟩ := execChunk_next.mp hrest
    obtain ⟨-, -, -, hdec⟩ := ingest_frame h2
    have hcons := ingest_cons_next.mpr ⟨s1, s2, h1, h2, rfl⟩
    exact ⟨_, execChunk_next.mpr ⟨ha, hcons⟩, rfl, rfl, rfl, rfl, rfl, rfl, rfl, hdec⟩
  case sound =>
    obtain ⟨t, ht⟩ := ingest_of_sound hs bytes
    obtain ⟨hcfg, hinput, hpos, -⟩ := ingest_frame ht
    exact ⟨t, exec_chunk_of_ingest hs ht, ingest_keeps_sound hs ht, hcfg, hinput, hpos⟩

/-! ### Chunk boundaries and idle steps (R80) -/

@[simp] theorem State.prependOut_none (s : State) : s.prependOut Outputs.none = s := rfl

theorem andThen_assoc (o : StepResult) (f g : State → StepResult) :
    andThen (andThen o f) g = andThen o fun s => andThen (f s) g := by
  cases o <;> rfl

theorem andThen_next_right (o : StepResult) : andThen o .next = o := by
  cases o <;> rfl

theorem ingest_prependOut (bytes : List Byte) (o : Outputs) (s : State) :
    ingest bytes (s.prependOut o) = ingest bytes s := by
  rw [← ingest_clearOut, ← ingest_clearOut bytes s]
  rfl

/-- Chunk-boundary independence as an equation of outcomes, faults and refusals included. -/
theorem ingest_append (xs ys : List Byte) (s : State) :
    ingest (xs ++ ys) s =
      andThen (ingest xs s) fun t => andThen (ingest ys t) fun u => .next (u.prependOut t.out) := by
  induction xs generalizing s with
  | nil =>
    simp only [List.nil_append, ingest_nil, andThen_next, State.clearOut_out, State.prependOut_none, ingest_clearOut]
    exact (andThen_next_right _).symm
  | cons b rest ih =>
    simp only [List.cons_append, ingest, ih, andThen_assoc, andThen_next, ingest_prependOut, State.prependOut_out,
      State.prependOut_prependOut]

/-- An IDLE between two operations makes no difference. -/
theorem feed_idle_cons {s : State} (ha : s.cfg.Admitted) (rest : List Instr) :
    feed (.idle :: rest) s = feed rest s.clearOut := by
  have hidle : exec .idle s = .next s.clearOut := onInstance_admitted ha _
  simp only [feed, hidle, andThen_next, State.clearOut_out, State.prependOut_none]
  exact andThen_next_right _

/-- With an admitted configuration a partition into chunks and IDLE steps is the `ingest` of all its bytes. -/
theorem feed_eq_ingest {s : State} {parts : List Instr} (ha : s.cfg.Admitted)
    (hparts : ∀ i, i ∈ parts → i = .idle ∨ ∃ bytes, i = .chunk bytes) :
    feed parts s = ingest (parts.flatMap chunkBytes) s := by
  induction parts generalizing s with
  | nil => rfl
  | cons i rest ih =>
    rw [List.forall_mem_cons] at hparts
    obtain ⟨rfl | ⟨bytes, rfl⟩, hrest⟩ := hparts
    · rw [feed_idle_cons ha, ih (s := s.clearOut) ha hrest, ingest_clearOut]
      rfl
    · have hchunk : exec (.chunk bytes) s = ingest bytes s := onInstance_admitted ha _
      rw [List.flatMap_cons, chunkBytes, ingest_append, feed, hchunk]
      cases h : ingest bytes s with
      | next t =>
        obtain ⟨hcfg, -⟩ := ingest_frame h
        rw [andThen_next, andThen_next, ih (hcfg ▸ ha) hrest]
      | fault r => rfl
      | refused r => rfl

/-- Settles O38: two chunks are one because `ingest` of an appended stream is that of its parts
(`ingest_append_of_next`); for any partition, induction on the parts (`feed_eq_ingest`). -/
theorem chunkBoundaryIndependence : Obligations.ChunkBoundaryIndependence := by
  refine ⟨fun s s1 s2 c1 c2 h1 h2 => ?_, fun s parts ha hparts => ?_⟩
  · obtain ⟨ha, hx⟩ := execChunk_next.mp h1
    obtain ⟨-, hy⟩ := execChunk_next.mp h2
    exact ⟨_, execChunk_next.mpr ⟨ha, ingest_append_of_next hx hy⟩, rfl, rfl, rfl, rfl, rfl, rfl, rfl⟩
  · exact (feed_eq_ingest ha hparts).trans (onInstance_admitted ha _).symm

/-! ### Streams without a header (R82) -/

/-- While the block seeks after every prefix, no byte was accepted as a fourth header byte, so every step was a match
or a mismatch. -/
theorem exists_seeksTo_of_seeking {s : State} {m : Fin 4} {stream : List Byte} (hs : s.Sound)
    (hp : s.phase = .seeking m)
    (hseek : ∀ j, j ≤ stream.length → ∃ t, ingest (stream.take j) s = .next t ∧ t.PHASE ≤ 0) :
    ∃ m' ds, s.SeeksTo stream m' ds := by
  induction stream using List.reverseRecOn with
  | nil => exact ⟨m, [], .nil hs hp⟩
  | append_singleton xs b ih =>
    rw [List.length_append, List.length_singleton] at hseek
    have hprefix : ∀ j, j ≤ xs.length → ∃ t, ingest (xs.take j) s = .next t ∧ t.PHASE ≤ 0 := fun j hj => by
      rw [← List.take_append_of_le_length (l₂ := [b]) hj]
      exact hseek j (Nat.le_succ_of_le hj)
    obtain ⟨m', ds, hxs⟩ := ih hprefix
    by_cases hb : b = hdr s.cfg.magic m'.val
    case neg => exact ⟨0, _, hxs.concat_mismatch hb⟩
    by_cases hm : m'.val < 3
    case pos => exact ⟨m' + 1, ds, hxs.concat_match hm hb⟩
    obtain rfl : m' = 3 := Fin.ext (show m'.val = 3 by omega)
    obtain ⟨t, ht, htp, -⟩ := hxs.concat_accept hb
    obtain ⟨u, hu, hP⟩ := hseek (xs.length + 1) le_rfl
    rw [List.take_of_length_le (by simp), ht] at hu
    cases hu
    have hN : 5 ≤ s.n := Cfg.five_le_of_admitted hs.admitted
    rw [State.PHASE_of_filling htp] at hP
    omega

theorem State.SeeksTo.chunk_silent {s : State} {bytes : List Byte} {m : Fin 4} {ds : List Diag} (hs : s.Sound)
    (h : s.SeeksTo bytes m ds) : ∃ t, exec (.chunk bytes) s = .next t ∧ t.PHASE ≤ 0 ∧ t.out.events = [] := by
  obtain ⟨t, ht, hp, -, hev, -⟩ := h.chunk hs
  have hP := State.PHASE_of_seeking hp
  exact ⟨t, ht, by omega, hev⟩

/-- Settles O39: a stream after each prefix of which the block seeks is matches and mismatches alone
(`exists_seeksTo_of_seeking`); with a uniform header so is each prefix of a stream without four `h` in a row
(`exists_seeksTo_trailingRun`). -/
theorem neverHeaderNoEvent : Obligations.NeverHeaderNoEvent := by
  refine ⟨fun s m stream hs hp hseek => ?_, fun s h stream hs hp huniform hrun j _ => ?_⟩
  · have hingest : ∀ j, j ≤ stream.length → ∃ t, ingest (stream.take j) s = .next t ∧ t.PHASE ≤ 0 := fun j hj => by
      obtain ⟨t, ht, hP⟩ := hseek j hj
      exact ⟨t, (execChunk_next.mp ht).2, hP⟩
    obtain ⟨m', ds, hto⟩ := exists_seeksTo_of_seeking hs hp hingest
    exact hto.chunk_silent hs
  · have hnone : ∀ i, ¬ RunAt h (stream.take j) i := fun i hi => hrun i (hi.of_prefix (List.take_prefix j stream))
    obtain ⟨m, ds, hto, -⟩ := exists_seeksTo_trailingRun hs hp huniform hnone
    exact hto.chunk_silent hs

/-! ### The spacing of events (R84) -/

/-- Where an event or a reset leaves the block: nothing of the next frame has been taken. -/
def State.FrameStart (s : State) : Prop := s.phase = .filling s.n ∨ s.phase = .seeking 0

/-- How many bytes at least are missing to the next event: those of a frame from the write pointer on. -/
def State.missing (s : State) : Nat :=
  match s.phase with
  | .seeking m => s.n - m.val
  | .filling r => r

section
variable {s t : State}

theorem State.missing_of_seeking {m : Fin 4} (hp : s.phase = .seeking m) : s.missing = s.n - m.val := by
  rw [State.missing, hp]

theorem State.missing_of_filling {r : Nat} (hp : s.phase = .filling r) : s.missing = r := by
  rw [State.missing, hp]

theorem State.FrameStart.missing_eq (h : s.FrameStart) : s.missing = s.n := by
  rcases h with hp | hp
  · exact State.missing_of_filling hp
  · exact State.missing_of_seeking hp

theorem State.missing_le_of_sound (hs : s.Sound) : s.missing ≤ s.n := by
  cases hp : s.phase with
  | seeking m =>
    rw [State.missing_of_seeking hp]
    exact Nat.sub_le _ _
  | filling r =>
    obtain ⟨-, hr⟩ := legal_filling.mp (hp ▸ hs.phaseLegal)
    rwa [State.missing_of_filling hp]

theorem State.frameStart_of_rearmPhase (hp : s.phase = rearmPhase s.cfg) : s.FrameStart := by
  cases hstrict : s.cfg.strict with
  | true => exact .inr (hp.trans (rearmPhase_of_strict hstrict))
  | false => exact .inl (hp.trans (rearmPhase_of_compatible hstrict))

/-- A `BYTE` operation either emits nothing and brings the next event nearer by at most one byte, or completes a
candidate, of which one byte was missing, with one event. -/
theorem exec_byteOp_spacing {op : ByteOp} {b : Byte} (h : exec (op.instr b) s = .next t) :
    (t.out.events = [] ∧ s.missing ≤ t.missing + 1) ∨
      (t.out.events.length = 1 ∧ s.missing = 1 ∧ t.FrameStart) := by
  cases op with
  | seekMatch =>
    obtain ⟨-, m, hp, hm, -, -, rfl⟩ := execSeekMatch_next h
    refine .inl ⟨rfl, ?_⟩
    rw [State.missing_of_seeking hp, State.missing_of_seeking rfl, val_succ_of_lt_three hm]
    show s.n - m.val ≤ s.n - (m.val + 1) + 1
    omega
  | seekAccept =>
    obtain ⟨-, hp, -, rfl⟩ := execSeekAccept_next h
    refine .inl ⟨rfl, ?_⟩
    rw [State.missing_of_seeking hp, State.missing_of_filling rfl]
    show s.n - 3 ≤ s.n - 4 + 1
    omega
  | seekMismatch =>
    obtain ⟨-, m, hp, -, rfl⟩ := execSeekMismatch_next h
    refine .inl ⟨rfl, ?_⟩
    rw [State.missing_of_seeking hp, State.missing_of_seeking rfl]
    exact (Nat.sub_le s.n m.val).trans (Nat.le_succ s.n)
  | fill =>
    obtain ⟨-, r, hp, -, -, rfl⟩ := execFill_next h
    refine .inl ⟨rfl, ?_⟩
    rw [State.missing_of_filling hp, State.missing_of_filling rfl]
    omega
  | fillReady =>
    obtain ⟨-, hp, -, rfl⟩ := execFillReady_next h
    exact .inr ⟨rfl, State.missing_of_filling hp, State.frameStart_of_rearmPhase rfl⟩
  | fillReject =>
    obtain ⟨-, hp, -, rfl⟩ := execFillReject_next h
    exact .inr ⟨rfl, State.missing_of_filling hp, .inr rfl⟩

theorem byteStep_events_le {b : Byte} (h : byteStep b s = .next t) :
    t.out.events.length * s.n + s.missing ≤ t.missing + 1 := by
  obtain ⟨op, -, hexec⟩ := byteStep_next h
  have hn := byteStep_n h
  rcases exec_byteOp_spacing hexec with ⟨hev, hle⟩ | ⟨hev, hone, hstart⟩
  · simpa [hev] using hle
  · rw [hev, hone, hstart.missing_eq, hn, Nat.one_mul]

/-- Each event takes `N` bytes of a chunk, of which at most `N - missing` were taken before it. -/
theorem ingest_events_le {bytes : List Byte} (h : ingest bytes s = .next t) :
    t.out.events.length * s.n + s.missing ≤ t.missing + bytes.length := by
  induction bytes generalizing s t with
  | nil =>
    cases h
    have hmissing : s.clearOut.missing = s.missing := rfl
    simp [hmissing]
  | cons b rest ih =>
    obtain ⟨s1, s2, h1, h2, rfl⟩ := ingest_cons_next.mp h
    have hfirst := byteStep_events_le h1
    have hrest := ih h2
    have hmissing : (s2.prependOut s1.out).missing = s2.missing := rfl
    rw [byteStep_n h1] at hrest
    rw [hmissing, State.prependOut_out, Outputs.append_events, List.length_append, Nat.add_mul, List.length_cons]
    omega

/-- From the start of a frame, `n` bytes give at most `n / N` events. -/
theorem State.FrameStart.exists_ingest (hstart : s.FrameStart) (hs : s.Sound) (bytes : List Byte) :
    ∃ t, ingest bytes s = .next t ∧ t.out.events.length ≤ bytes.length / s.n := by
  obtain ⟨t, ht⟩ := ingest_of_sound hs bytes
  obtain ⟨hcfg, -⟩ := ingest_frame ht
  have hn : t.n = s.n := congrArg Cfg.n hcfg
  have hN : 5 ≤ s.n := Cfg.five_le_of_admitted hs.admitted
  have hle := ingest_events_le ht
  have hmissing := State.missing_le_of_sound (ingest_keeps_sound hs ht)
  rw [hstart.missing_eq] at hle
  exact ⟨t, ht, (Nat.le_div_iff_mul_le (by omega)).mpr (by omega)⟩

/-- Fewer than `N` bytes from the start of a frame give no event. -/
theorem State.FrameStart.exists_ingest_silent (hstart : s.FrameStart) (hs : s.Sound) {bytes : List Byte}
    (hlen : bytes.length < s.n) : ∃ t, ingest bytes s = .next t ∧ t.out.events = [] := by
  obtain ⟨t, ht, hle⟩ := hstart.exists_ingest hs bytes
  rw [Nat.div_eq_of_lt hlen] at hle
  exact ⟨t, ht, List.eq_nil_of_length_eq_zero (Nat.le_zero.mp hle)⟩

end

theorem State.initial_sound {c : Cfg} (ha : c.Admitted) : (State.initial c).Sound :=
  ⟨ha, State.initial_bufWf c, rfl⟩

/-- Settles O41: both clauses are the bound of `State.FrameStart.exists_ingest`. -/
theorem eventSpacing : Obligations.EventSpacing := by
  refine ⟨fun c bytes ha => ?_, fun s bytes hs hstart hlen => ?_⟩
  · have hs := State.initial_sound ha
    obtain ⟨t, ht, hle⟩ := State.FrameStart.exists_ingest (.inr (State.initial_phase c)) hs bytes
    exact ⟨t, exec_chunk_of_ingest hs ht, hle⟩
  · obtain ⟨t, ht, hev⟩ := State.FrameStart.exists_ingest_silent hstart hs hlen
    exact ⟨t, exec_chunk_of_ingest hs ht, hev⟩

/-! ### Back-to-back frames and resync (R83) -/

/-- The matched header bytes stand at the front of `BUF` (R22). -/
def State.SeekPrefix (s : State) : Prop := ∀ m, s.phase = .seeking m → s.HeaderPrefix m.val

theorem State.seekPrefix_of_seeking_zero {s : State} (hp : s.phase = .seeking 0) : s.SeekPrefix := by
  intro m hm i hi
  obtain rfl : m = 0 := Phase.seeking.inj (hm.symm.trans hp)
  exact absurd hi (Nat.not_lt_zero i)

theorem State.seekPrefix_of_filling {s : State} {r : Nat} (hp : s.phase = .filling r) : s.SeekPrefix :=
  fun _ hm => nomatch hm.symm.trans hp

theorem State.FrameStart.seekPrefix {s : State} (h : s.FrameStart) : s.SeekPrefix := by
  rcases h with hp | hp
  · exact State.seekPrefix_of_filling hp
  · exact State.seekPrefix_of_seeking_zero hp

/-- Only SEEK_MATCH leaves a block that has matched something, and it writes the byte that it matched. -/
theorem exec_byteOp_keeps_seekPrefix {op : ByteOp} {b : Byte} {s t : State} (hs : s.Sound) (hprefix : s.SeekPrefix)
    (h : exec (op.instr b) s = .next t) : t.SeekPrefix := by
  cases op with
  | seekMatch =>
    obtain ⟨-, m, hp, hm, hb, -, rfl⟩ := execSeekMatch_next h
    intro m' hm'
    obtain rfl : m + 1 = m' := Phase.seeking.inj hm'
    rw [val_succ_of_lt_three hm]
    exact (hprefix m hp).write hs.bufWf hb rfl rfl
  | seekAccept =>
    obtain ⟨-, -, -, rfl⟩ := execSeekAccept_next h
    exact State.seekPrefix_of_filling rfl
  | seekMismatch =>
    obtain ⟨-, m, -, -, rfl⟩ := execSeekMismatch_next h
    exact State.seekPrefix_of_seeking_zero rfl
  | fill =>
    obtain ⟨-, r, -, -, -, rfl⟩ := execFill_next h
    exact State.seekPrefix_of_filling rfl
  | fillReady =>
    obtain ⟨-, -, -, rfl⟩ := execFillReady_next h
    exact (State.frameStart_of_rearmPhase rfl).seekPrefix
  | fillReject =>
    obtain ⟨-, -, -, rfl⟩ := execFillReject_next h
    exact State.seekPrefix_of_seeking_zero rfl

theorem ingest_keeps_seekPrefix {bytes : List Byte} {s t : State} (hs : s.Sound) (hprefix : s.SeekPrefix)
    (h : ingest bytes s = .next t) : t.SeekPrefix := by
  have hkeep : t.Sound ∧ t.SeekPrefix := by
    refine ingest_keeps (P := fun s => s.Sound ∧ s.SeekPrefix) ?outputs ?step ⟨hs, hprefix⟩ h
    case outputs =>
      rintro s o ⟨hs, hprefix⟩
      exact ⟨⟨hs.admitted, hs.bufWf, hs.phaseLegal⟩, hprefix⟩
    case step =>
      rintro b s t ⟨hs, hprefix⟩ hstep
      obtain ⟨op, -, hexec⟩ := byteStep_next hstep
      exact ⟨exec_byteOp_keeps_sound hs hexec, exec_byteOp_keeps_seekPrefix hs hprefix hexec⟩
  exact hkeep.2

section
variable {s : State} {frame : List Byte}

/-- From `Seeking(0)` a valid frame is matched, accepted and completed. -/
theorem ingest_validFrame_of_seeking (hs : s.Sound) (hp : s.phase = .seeking 0) (hframe : ValidFrame s.cfg frame) :
    ∃ t, ingest frame s = .next t ∧ t.out.events = [.frameReady frame] ∧ t.phase = rearmPhase s.cfg := by
  obtain ⟨hlen, hhead⟩ := hframe
  have hN : 5 ≤ s.cfg.n := Cfg.five_le_of_admitted hs.admitted
  have h1 := (State.SeeksTo.nil hs hp).concat_match (by decide) rfl
  have h2 := h1.concat_match (by decide) rfl
  have h3 := h2.concat_match (by decide) rfl
  obtain ⟨t, ht, hsound, hcfg, htp, htev, -⟩ := h3
  have hheader := ingest_keeps_seekPrefix hs (State.seekPrefix_of_seeking_zero hp) ht 3 htp
  have hpayload : (frame.drop 4).length + 4 = t.n := by
    rw [List.length_drop, hlen, State.n, hcfg]
    omega
  obtain ⟨u, hu, huev, -, hup⟩ := acceptedFrameValidates t (frame.drop 4) hsound htp hheader hpayload
  obtain ⟨-, hu⟩ := execChunk_next.mp hu
  have hwhole := ingest_append_of_next ht hu
  have hsplit : headerBytes s.cfg.magic ++ frame.drop 4 = frame := by rw [← hhead, List.take_append_drop]
  rw [hcfg] at hwhole huev
  rw [hsplit] at huev
  exact ⟨_, (congrArg (ingest · s) hsplit).symm.trans hwhole, by simp [htev, huev],
    hup.trans (congrArg rearmPhase hcfg)⟩

/-- From `Filling(N)` a valid frame is completed, and its header checked then (R74). -/
theorem ingest_validFrame_of_rearmed (hs : s.Sound) (hp : s.phase = .filling s.n) (hframe : ValidFrame s.cfg frame) :
    ∃ t, ingest frame s = .next t ∧ t.out.events = [.frameReady frame] ∧ t.phase = rearmPhase s.cfg := by
  obtain ⟨hlen, hhead⟩ := hframe
  have hN : 5 ≤ s.n := Cfg.five_le_of_admitted hs.admitted
  obtain rfl | ⟨bytes, b, rfl⟩ := List.eq_nil_or_concat' frame
  · exact nomatch hhead
  have hlen1 : bytes.length + 1 = s.n := (List.length_append (bs := [b])).symm.trans hlen
  rw [List.take_append_of_le_length (by omega)] at hhead
  obtain ⟨t, ht, hsound, hcfg, hp1, hev, hcandidate, hheader⟩ :=
    (State.fillsTo_of_rearmed (bytes := bytes) hs hp (by omega)).completing hN hlen1
  have hle := hheader.mpr hhead
  exact ⟨_, ingest_concat_of_exec ht (selectByte_eq_fillReady hp1 hle) (exec_fillReady_of_sound hsound hp1 hle),
    by simp [hev, hcandidate], congrArg rearmPhase hcfg⟩

theorem ingest_validFrame (hs : s.Sound) (hstart : s.FrameStart) (hframe : ValidFrame s.cfg frame) :
    ∃ t, ingest frame s = .next t ∧ t.Sound ∧ t.cfg = s.cfg ∧ t.FrameStart ∧ t.out.events = [.frameReady frame] := by
  obtain ⟨t, ht, hev, hp⟩ :
      ∃ t, ingest frame s = .next t ∧ t.out.events = [.frameReady frame] ∧ t.phase = rearmPhase s.cfg := by
    rcases hstart with hp | hp
    · exact ingest_validFrame_of_rearmed hs hp hframe
    · exact ingest_validFrame_of_seeking hs hp hframe
  obtain ⟨hcfg, -⟩ := ingest_frame ht
  exact ⟨t, ht, ingest_keeps_sound hs ht, hcfg, State.frameStart_of_rearmPhase (hcfg ▸ hp), hev⟩

/-- After `j` bytes of back-to-back valid frames exactly the complete ones have been emitted: a frame's bytes before its
last give no event, and its last byte leaves the block at the start of the next. -/
theorem ingest_take_validFrames {frames : List (List Byte)} (hs : s.Sound) (hstart : s.FrameStart)
    (hframes : ∀ g, g ∈ frames → ValidFrame s.cfg g) (j : Nat) :
    ∃ t, ingest (frames.flatten.take j) s = .next t ∧ t.out.events = (frames.take (j / s.n)).map Event.frameReady := by
  induction frames generalizing s j with
  | nil => exact ⟨s.clearOut, by rw [List.flatten_nil, List.take_nil, ingest_nil], by simp⟩
  | cons frame rest ih =>
    rw [List.forall_mem_cons] at hframes
    obtain ⟨hframe, hrest⟩ := hframes
    by_cases hj : j < s.n
    case pos =>
      have hlen := Nat.lt_of_le_of_lt (List.length_take_le j (frame :: rest).flatten) hj
      obtain ⟨t, ht, hev⟩ := hstart.exists_ingest_silent hs hlen
      exact ⟨t, ht, by rw [hev, Nat.div_eq_of_lt hj, List.take_zero, List.map_nil]⟩
    case neg =>
      have hN : 5 ≤ s.n := Cfg.five_le_of_admitted hs.admitted
      have hlen : frame.length = s.n := hframe.1
      obtain ⟨t, ht, hsound, hcfg, htstart, htev⟩ := ingest_validFrame hs hstart hframe
      have hn : t.n = s.n := congrArg Cfg.n hcfg
      obtain ⟨u, hu, huev⟩ := ih hsound htstart (hcfg ▸ hrest) (j - s.n)
      have hdiv : j / s.n = (j - s.n) / s.n + 1 := Nat.div_eq_sub_div (by omega) (by omega)
      rw [List.flatten_cons, List.take_append, List.take_of_length_le (by omega), hlen]
      refine ⟨_, ingest_append_of_next ht hu, ?_⟩
      rw [State.prependOut_out, Outputs.append_events, htev, huev, hn, hdiv, List.take_succ_cons, List.map_cons,
        List.singleton_append]

end

/-- Before the first run of `h` stands another byte, or none. -/
theorem FirstRunAt.trailingRun_eq_zero {h : Byte} {xs ys : List Byte} (hfirst : FirstRunAt h (xs ++ ys) xs.length) :
    trailingRun h xs = 0 := by
  obtain ⟨hrun, hleast⟩ := hfirst
  obtain rfl | ⟨zs, b, rfl⟩ := List.eq_nil_or_concat' xs
  · rfl
  refine trailingRun_concat_of_ne fun hb => hleast zs.length (by simp) fun k hk => ?_
  cases k with
  | zero => simp [hb]
  | succ k =>
    have hk' := hrun k (by omega)
    rwa [List.length_append, List.length_singleton, Nat.add_assoc, Nat.add_comm 1 k] at hk'

/-- Settles O40: within the garbage no run is complete, so nothing is emitted; the byte before the first run is not `h`,
so the garbage leaves the block in `Seeking(0)`, at the start of the first genuine frame
(`ingest_take_validFrames`). -/
theorem resyncExact : Obligations.ResyncExact := by
  intro s h garbage frames hs hp huniform _ hframes hfirst j _
  by_cases hj : j ≤ garbage.length
  case pos =>
    obtain ⟨m, ds, hto, -⟩ := exists_seeksTo_trailingRun hs hp huniform (hfirst.not_runAt_take (j := j) (by omega))
    obtain ⟨t, ht, -, hev⟩ := hto.chunk_silent hs
    exact ⟨t, ht, by simp [hev, Nat.sub_eq_zero_of_le hj]⟩
  case neg =>
    have hnone := hfirst.not_runAt_take (j := garbage.length) (by omega)
    rw [List.take_left] at hnone
    obtain ⟨m, ds, hto, hm⟩ := exists_seeksTo_trailingRun hs hp huniform hnone
    rw [hfirst.trailingRun_eq_zero] at hm
    obtain rfl : m = 0 := Fin.ext hm
    obtain ⟨t, ht, hsound, hcfg, htp, htev, -⟩ := hto
    have hn : t.n = s.n := congrArg Cfg.n hcfg
    obtain ⟨u, hu, huev⟩ := ingest_take_validFrames hsound (.inr htp) (hcfg ▸ hframes) (j - garbage.length)
    rw [List.take_append, List.take_of_length_le (Nat.le_of_not_le hj)]
    exact ⟨_, exec_chunk_of_ingest hs (ingest_append_of_next ht hu), by simp [htev, huev, hn]⟩

end Sys2Proof.Machine

/-! PROOFS. The statements of 43_decode.md: the check of the entries (R85, R88), the raw value of a field (R87) and the
purity of the decoder (R90). -/

namespace Sys2Proof.Machine

/-! ### DECODE on an instance (R85, R90) -/

/-- On an instance DECODE always answers: the empty outputs with the decoder's result, and nothing else changed. -/
theorem exec_decode_of_admitted {s : State} (ha : s.cfg.Admitted) (frame : List Byte) :
    exec (.decode frame) s =
      .next { s with out := { Outputs.none with decoded := some (decodeFrame s.cfg.layout frame) } } :=
  onInstance_admitted ha _

/-- Settles O44: the outputs hold only the decoder's result, which reads the frame and the layout and nothing else. -/
theorem decodePure : Obligations.DecodePure := by
  intro s s' frame ha ha' hlayout
  refine ⟨_, _, exec_decode_of_admitted ha frame, exec_decode_of_admitted ha' frame, ?_, rfl, rfl⟩
  simp only [hlayout]

/-! ### The check of the entries (R88) -/

theorem misfits_iff {len : Nat} {f : LayoutEntry} : misfits len f = true ↔ f.offset + f.width > (len : Int) :=
  decide_eq_true_iff

theorem not_misfits_iff {len : Nat} {f : LayoutEntry} : ¬ misfits len f = true ↔ f.offset + f.width ≤ (len : Int) := by
  rw [misfits_iff, not_lt]

/-- The decoder reports entry `k` exactly when it is the lowest one that does not fit. -/
theorem decodeFrame_eq_decodeError_iff {layout : List LayoutEntry} {frame : List Byte} {k : Nat} :
    decodeFrame layout frame = .decodeError k ↔
      ∃ f, layout[k]? = some f ∧ f.offset + f.width > (frame.length : Int) ∧
        ∀ j g, j < k → layout[j]? = some g → g.offset + g.width ≤ (frame.length : Int) := by
  have hfind : decodeFrame layout frame = .decodeError k ↔ layout.findIdx? (misfits frame.length) = some k := by
    unfold decodeFrame
    split <;> simp [*]
  rw [hfind, List.findIdx?_eq_some_iff_getElem]
  constructor
  · rintro ⟨hk, hmisfit, hleast⟩
    refine ⟨layout[k], List.getElem?_eq_getElem hk, misfits_iff.mp hmisfit, fun j g hj hg => ?_⟩
    obtain ⟨_, rfl⟩ := List.getElem?_eq_some_iff.mp hg
    exact not_misfits_iff.mp (hleast j hj)
  · rintro ⟨f, hf, hmisfit, hleast⟩
    obtain ⟨hk, rfl⟩ := List.getElem?_eq_some_iff.mp hf
    exact ⟨hk, misfits_iff.mpr hmisfit,
      fun j hj => not_misfits_iff.mpr (hleast j _ hj (List.getElem?_eq_getElem (hj.trans hk)))⟩

/-- The decoder fails as soon as some entry does not fit. -/
theorem exists_decodeFrame_eq_decodeError {layout : List LayoutEntry} {frame : List Byte} {f : LayoutEntry}
    (hf : f ∈ layout) (hmisfit : f.offset + f.width > (frame.length : Int)) :
    ∃ k, decodeFrame layout frame = .decodeError k := by
  unfold decodeFrame
  split
  case h_1 k _ => exact ⟨k, rfl⟩
  case h_2 hnone =>
    have hfits := List.findIdx?_eq_none_iff.mp hnone f hf
    exact absurd (misfits_iff.mpr hmisfit) (Bool.eq_false_iff.mp hfits)

/-- Settles O43: the decoder fails when some entry does not fit, and what it then reports is the lowest such entry
(`decodeFrame_eq_decodeError_iff`). -/
theorem decodeMisfit : Obligations.DecodeMisfit := by
  rintro s frame ha ⟨f, hf, hmisfit⟩
  obtain ⟨k, hk⟩ := exists_decodeFrame_eq_decodeError hf hmisfit
  obtain ⟨g, hg, hgmisfit, hleast⟩ := decodeFrame_eq_decodeError_iff.mp hk
  refine ⟨k, g, hg, hgmisfit, hleast, ?_⟩
  rw [exec_decode_of_admitted ha, hk]
  rfl

/-! ### The raw value of a field (R87) -/

/-- A byte of the middle part of a frame is read at its own index, counted from the part's start. -/
theorem frameByte_append_mid (before mid after : List Byte) {i : Nat} (hi : i < mid.length) :
    frameByte (before ++ mid ++ after) (before.length + i) = frameByte mid i := by
  unfold frameByte
  rw [List.append_assoc, List.getD_append_right _ _ _ _ (Nat.le_add_right _ _), Nat.add_sub_cancel_left,
    List.getD_append _ _ _ _ hi]

/-- The little-endian value of the middle part of a frame does not depend on the bytes around it. -/
theorem le_frameByte_append_mid (before mid after : List Byte) :
    le (frameByte (before ++ mid ++ after)) before.length mid.length = le (frameByte mid) 0 mid.length := by
  refine (le_inj _ _ _ _ _).mpr fun i hi => ?_
  rw [Nat.zero_add, frameByte_append_mid before mid after hi]

/-- Two's complement (GK2) of the little-endian value, which loses nothing as a 32-bit pattern. -/
theorem rawField_eq (frame : List Byte) (offset : Nat) :
    rawField frame offset =
      if 2 * le (frameByte frame) offset 4 < 2 ^ 32 then (le (frameByte frame) offset 4 : Int)
      else le (frameByte frame) offset 4 - 2 ^ 32 := by
  rw [rawField, s32, BitVec.toInt_eq_toNat_cond, BitVec.toNat_ofNat, Nat.mod_eq_of_lt (le_lt _ offset 4)]
  rfl

theorem rawField_range (frame : List Byte) (offset : Nat) :
    -2 ^ 31 ≤ rawField frame offset ∧ rawField frame offset ≤ 2 ^ 31 - 1 :=
  ⟨BitVec.le_toInt _, BitVec.toInt_le⟩

/-- Settles O46: the little-endian sum is below `2 ^ 31` exactly when its highest byte is below `128`, and otherwise two's
complement takes off `2 ^ 32`. -/
theorem rawFieldValue : Obligations.RawFieldValue := by
  intro before after b0 b1 b2 b3
  refine ⟨?value, rawField_range _ _⟩
  have hle : le (frameByte (before ++ [b0, b1, b2, b3] ++ after)) before.length 4 =
      b0.toNat + b1.toNat * 2 ^ 8 + b2.toNat * 2 ^ 16 + b3.toNat * 2 ^ 24 :=
    (le_frameByte_append_mid before [b0, b1, b2, b3] after).trans (le_four _ 0)
  have h0 := b0.isLt
  have h1 := b1.isLt
  have h2 := b2.isLt
  have htop : 2 * le (frameByte (before ++ [b0, b1, b2, b3] ++ after)) before.length 4 < 2 ^ 32 ↔ b3.toNat < 128 := by
    omega
  rw [rawField_eq, if_congr htop rfl rfl, hle]
  push_cast
  split <;> ring

end Sys2Proof.Machine

/-! PROOFS. The statements of 60_exceptions.md: no condition is fatal (R97), and the admission table of a configuration
(R86, R96). -/

namespace Sys2Proof.Machine

/-! ### Every input has a step (R97) -/

/-- In a sound state every input is an operation whose state condition holds: the only input that could be none is a
`BYTE` word, and some row of R52 applies to it. -/
theorem exists_decode_of_sound {s : State} (hs : s.Sound) (x : PortInput) :
    ∃ i, decode s.view x = .ok i ∧ i.selectedIn s.view = true := by
  cases x with
  | ingest bytes => exact ⟨.chunk bytes, rfl, rfl⟩
  | decFrame len bits => exact ⟨.decode (unpackFrame len bits), rfl, rfl⟩
  | stepWord w =>
    cases hw : decodeStepWord w with
    | reset => exact ⟨.reset, by simp only [decode, hw], rfl⟩
    | idle => exact ⟨.idle, by simp only [decode, hw], rfl⟩
    | byte b =>
      obtain ⟨op, hop⟩ := exists_selectByte_eq_some hs b
      exact ⟨op.instr b, by simp only [decode, hw, hop], selectByte_selectedIn hop⟩

/-- A stalled transport asks for IDLE (R107), which has no state condition. -/
theorem exists_fetch_of_sound {s : State} (hs : s.Sound) :
    ∃ i, fetch s = .ok i ∧ i.selectedIn s.view = true := by
  cases hin : s.input with
  | nil => exact ⟨.idle, by simp only [fetch, hin], rfl⟩
  | cons x rest => simpa only [fetch, hin] using exists_decode_of_sound hs x

/-- In a sound state an operation answers when its state condition holds. -/
theorem exec_of_sound {i : Instr} {s : State} (hs : s.Sound) (hsel : i.selectedIn s.view = true) :
    ∃ t, exec i s = .next t := by
  cases i with
  | reset => exact ⟨_, onInstance_admitted hs.admitted _⟩
  | idle => exact ⟨_, onInstance_admitted hs.admitted _⟩
  | seekMatch b => exact exec_byteOp_of_sound (op := .seekMatch) hs hsel
  | seekAccept b => exact exec_byteOp_of_sound (op := .seekAccept) hs hsel
  | seekMismatch b => exact exec_byteOp_of_sound (op := .seekMismatch) hs hsel
  | fill b => exact exec_byteOp_of_sound (op := .fill) hs hsel
  | fillReady b => exact exec_byteOp_of_sound (op := .fillReady) hs hsel
  | fillReject b => exact exec_byteOp_of_sound (op := .fillReject) hs hsel
  | decode frame => exact ⟨_, exec_decode_of_admitted hs.admitted frame⟩
  | chunk bytes =>
    obtain ⟨t, ht⟩ := ingest_of_sound hs bytes
    exact ⟨t, exec_chunk_of_ingest hs ht⟩

theorem State.Sound.popInput {s : State} (hs : s.Sound) : s.popInput.Sound :=
  ⟨hs.admitted, hs.bufWf, hs.phaseLegal⟩

/-- Settles O9: the input of a sound state is an operation whose condition holds, and consuming the input changes
neither the soundness nor the condition. -/
theorem stepTotal : Obligations.StepTotal := by
  intro s hs
  obtain ⟨i, hfetch, hsel⟩ := exists_fetch_of_sound hs
  rw [step, hfetch]
  exact exec_of_sound hs.popInput hsel

end Sys2Proof.Machine

namespace Sys2Proof

/-! ### The admission table (R86, R96) -/

/-- A pattern is infinite or a NaN exactly when its exponent field, the bits 52 to 62, is all ones. -/
theorem binary64Finite_eq_false_iff (x : Binary64) : binary64Finite x = false ↔ x.toNat / 2 ^ 52 % 2 ^ 11 = 2047 := by
  rw [binary64Finite, bne_eq_false_iff_eq, ← BitVec.toNat_inj, BitVec.extractLsb'_toNat, Nat.shiftRight_eq_div_pow]
  rfl

/-- A pattern is a zero exactly when nothing but the sign bit may be set. -/
theorem binary64Zero_iff (x : Binary64) : binary64Zero x = true ↔ x.toNat % 2 ^ 63 = 0 := by
  rw [binary64Zero, beq_iff_eq, ← BitVec.toNat_inj, BitVec.extractLsb'_toNat, Nat.shiftRight_zero]
  rfl

/-- A scale is refused when it is there and infinite, a NaN or a zero (R86). -/
theorem scaleAdmitted_eq_false_iff {scale : Option Binary64} :
    scaleAdmitted scale = false ↔
      ∃ x, scale = some x ∧ (x.toNat / 2 ^ 52 % 2 ^ 11 = 2047 ∨ x.toNat % 2 ^ 63 = 0) := by
  cases scale with
  | none => simp [scaleAdmitted]
  | some x =>
    simp only [Option.some.injEq, exists_eq_left', ← binary64Finite_eq_false_iff, ← binary64Zero_iff]
    simp [scaleAdmitted, imp_iff_not_or]

section
variable {c : Cfg}

theorem Cfg.configError_of_frameSize_le (hN : c.frameSize ≤ 4) : c.configError = some .frameSizeTooSmall := by
  rw [Cfg.configError, if_pos hN]

theorem Cfg.configError_of_width (hN : 4 < c.frameSize) (hw : ∃ f, f ∈ c.layout ∧ f.width ≠ 4) :
    c.configError = some .fieldWidthUnsupported := by
  rw [Cfg.configError, if_neg (Int.not_le.mpr hN), if_pos (by simpa using hw)]

theorem Cfg.configError_of_offset (hN : 4 < c.frameSize) (hw : ∀ f, f ∈ c.layout → f.width = 4)
    (ho : ∃ f, f ∈ c.layout ∧ f.offset < 0) : c.configError = some .fieldOffsetNegative := by
  rw [Cfg.configError, if_neg (Int.not_le.mpr hN), if_neg (by simpa using hw), if_pos (by simpa using ho)]

/-- Some entry has a scale that R86 does not admit. -/
theorem Cfg.any_not_scaleAdmitted_iff :
    c.layout.any (fun f => !scaleAdmitted f.scale) = true ↔
      ∃ f x, f ∈ c.layout ∧ f.scale = some x ∧ (x.toNat / 2 ^ 52 % 2 ^ 11 = 2047 ∨ x.toNat % 2 ^ 63 = 0) := by
  simp only [List.any_eq_true, Bool.not_eq_true', scaleAdmitted_eq_false_iff, exists_and_left]

/-- When the size, the widths and the offsets are admitted, the scales decide. -/
theorem Cfg.configError_of_fits (hN : 4 < c.frameSize) (hwo : ∀ f, f ∈ c.layout → f.width = 4 ∧ 0 ≤ f.offset) :
    c.configError = if c.layout.any (fun f => !scaleAdmitted f.scale) then some .fieldScaleInvalid else none := by
  have hw : ∀ f, f ∈ c.layout → f.width = 4 := fun f hf => (hwo f hf).1
  have ho : ∀ f, f ∈ c.layout → 0 ≤ f.offset := fun f hf => (hwo f hf).2
  rw [Cfg.configError, if_neg (Int.not_le.mpr hN), if_neg (by simpa using hw), if_neg (by simpa using ho)]

end

end Sys2Proof

namespace Sys2Proof.Machine

/-- A refused configuration refuses whatever would run on it (R96). -/
theorem onInstance_refused {s : State} {e : ConfigError} (h : s.cfg.configError = some e) (k : StepResult) :
    onInstance s k = .refused (.configRefused e) := by
  rw [onInstance, h]

/-- Every operation runs on an instance, so none runs on a refused configuration. -/
theorem exec_refused {s : State} {e : ConfigError} (h : s.cfg.configError = some e) (i : Instr) :
    exec i s = .refused (.configRefused e) := by
  cases i <;> exact onInstance_refused h _

theorem State.create_refused {c : Cfg} {e : ConfigError} (h : c.configError = some e) (nMax : Nat) :
    State.create nMax c = .error e := by
  rw [State.create, h]

/-- Settles O50: the split follows the rows of the table from the lowest code up; in each branch the answer of the
check is known, and every row whose reason it is not fails by the branch's own hypotheses. -/
theorem admissionTable : Obligations.AdmissionTable := by
  refine ⟨fun c => ?rows, ⟨rfl, rfl, rfl, rfl⟩, fun _ _ nMax h => State.create_refused h nMax,
    fun _ i _ h => exec_refused h i⟩
  by_cases hN : c.frameSize ≤ 4
  · rw [Cfg.configError_of_frameSize_le hN]
    exact ⟨iff_of_true rfl hN, iff_of_false nofun (by omega), iff_of_false nofun (by omega),
      iff_of_false nofun (by omega), nofun⟩
  have hN' : 4 < c.frameSize := Int.not_le.mp hN
  by_cases hw : ∃ f, f ∈ c.layout ∧ f.width ≠ 4
  · rw [Cfg.configError_of_width hN' hw]
    obtain ⟨f, hf, hfw⟩ := hw
    exact ⟨iff_of_false nofun hN, iff_of_true rfl ⟨hN', f, hf, hfw⟩,
      iff_of_false nofun fun ⟨_, hall, _⟩ => hfw (hall f hf),
      iff_of_false nofun fun ⟨_, hall, _⟩ => hfw (hall f hf).1, nofun⟩
  have hw' : ∀ f, f ∈ c.layout → f.width = 4 := by simpa using hw
  by_cases ho : ∃ f, f ∈ c.layout ∧ f.offset < 0
  · rw [Cfg.configError_of_offset hN' hw' ho]
    obtain ⟨f, hf, hfo⟩ := ho
    exact ⟨iff_of_false nofun hN, iff_of_false nofun fun ⟨_, hbad⟩ => hw hbad, iff_of_true rfl ⟨hN', hw', f, hf, hfo⟩,
      iff_of_false nofun fun ⟨_, hall, _⟩ => Int.not_le.mpr hfo (hall f hf).2, nofun⟩
  have hwo : ∀ f, f ∈ c.layout → f.width = 4 ∧ 0 ≤ f.offset := fun f hf =>
    ⟨hw' f hf, Int.not_lt.mp fun hneg => ho ⟨f, hf, hneg⟩⟩
  rw [Cfg.configError_of_fits hN' hwo, ← Cfg.any_not_scaleAdmitted_iff]
  by_cases hs : c.layout.any (fun f => !scaleAdmitted f.scale) = true
  · rw [if_pos hs]
    exact ⟨iff_of_false nofun hN, iff_of_false nofun fun ⟨_, hbad⟩ => hw hbad,
      iff_of_false nofun fun ⟨_, _, hbad⟩ => ho hbad, iff_of_true rfl ⟨hN', hwo, hs⟩, nofun⟩
  · rw [if_neg hs]
    exact ⟨iff_of_false nofun hN, iff_of_false nofun fun ⟨_, hbad⟩ => hw hbad,
      iff_of_false nofun fun ⟨_, _, hbad⟩ => ho hbad, iff_of_false nofun fun ⟨_, _, hbad⟩ => hs hbad, nofun⟩

end Sys2Proof.Machine

/-! PROOFS. The statements of 70_reset_and_hazards.md: a layout against the frame size (R119). -/

namespace Sys2Proof

/-- The admission check says what R86 and R96 ask of a configuration: the frame size, and every entry by itself. -/
theorem Cfg.admitted_iff {c : Cfg} :
    c.Admitted ↔
      4 < c.frameSize ∧ ∀ f, f ∈ c.layout → f.width = 4 ∧ 0 ≤ f.offset ∧ scaleAdmitted f.scale = true := by
  constructor
  · intro h
    have hN : 4 < c.frameSize := by
      by_contra! hbad
      exact nomatch h.symm.trans (Cfg.configError_of_frameSize_le hbad)
    have hw : ∀ f, f ∈ c.layout → f.width = 4 := by
      by_contra! hbad
      exact nomatch h.symm.trans (Cfg.configError_of_width hN hbad)
    have ho : ∀ f, f ∈ c.layout → 0 ≤ f.offset := by
      by_contra! hbad
      exact nomatch h.symm.trans (Cfg.configError_of_offset hN hw hbad)
    have hs : ∀ f, f ∈ c.layout → scaleAdmitted f.scale = true := by
      simpa using (Cfg.configError_of_fits hN fun f hf => ⟨hw f hf, ho f hf⟩).symm.trans h
    exact ⟨hN, fun f hf => ⟨hw f hf, ho f hf, hs f hf⟩⟩
  · rintro ⟨hN, hentries⟩
    rw [Cfg.Admitted, Cfg.configError_of_fits hN fun f hf => ⟨(hentries f hf).1, (hentries f hf).2.1⟩, if_neg]
    simpa using fun f hf => (hentries f hf).2.2

/-- In an admitted configuration every entry is four bytes wide (R86). -/
theorem Cfg.width_of_admitted {c : Cfg} (ha : c.Admitted) {f : LayoutEntry} (hf : f ∈ c.layout) : f.width = 4 :=
  ((Cfg.admitted_iff.mp ha).2 f hf).1

/-- Admission looks at each entry by itself, so an entry may be added exactly when it is admitted by itself. -/
theorem Cfg.admitted_append_entry_iff {c : Cfg} {f : LayoutEntry} :
    ({ c with layout := c.layout ++ [f] } : Cfg).Admitted ↔
      c.Admitted ∧ f.width = 4 ∧ 0 ≤ f.offset ∧ scaleAdmitted f.scale = true := by
  simp only [Cfg.admitted_iff, List.forall_mem_append, List.forall_mem_singleton, and_assoc]

end Sys2Proof

namespace Sys2Proof.Machine

/-- The decoder succeeds when every entry fits (R85). -/
theorem decodeFrame_eq_ok_of_fits {layout : List LayoutEntry} {frame : List Byte}
    (hfits : ∀ f, f ∈ layout → f.offset + f.width ≤ (frame.length : Int)) :
    decodeFrame layout frame = .ok (layout.map (fieldValue frame)) := by
  have hnone : layout.findIdx? (misfits frame.length) = none :=
    List.findIdx?_eq_none_iff.mpr fun f hf => Bool.eq_false_iff.mpr (not_misfits_iff.mpr (hfits f hf))
  rw [decodeFrame, hnone]

/-- Settles O45: DECODE's check is `offset + width > L`, and with an admitted configuration the width is 4 and an
`N`-byte frame has `L = N`; admission itself never compares an offset with `N`. -/
theorem layoutAgainstFrameSize : Obligations.LayoutAgainstFrameSize := by
  refine ⟨fun s f frame ha hf hmisfit hlen => ?fails, fun s frame ha hfits hlen => ?succeeds,
    fun c offset ha hoffset => Cfg.admitted_append_entry_iff.mpr ⟨ha, rfl, hoffset, rfl⟩⟩
  case fails =>
    have hL : (frame.length : Int) = s.cfg.frameSize := hlen ▸ Cfg.n_eq_of_admitted ha
    rw [← hL, ← Cfg.width_of_admitted ha hf] at hmisfit
    obtain ⟨k, hk⟩ := exists_decodeFrame_eq_decodeError hf hmisfit
    exact ⟨_, k, exec_decode_of_admitted ha frame, congrArg some hk⟩
  case succeeds =>
    have hL : (frame.length : Int) = s.cfg.frameSize := hlen ▸ Cfg.n_eq_of_admitted ha
    have hok := decodeFrame_eq_ok_of_fits (layout := s.cfg.layout) (frame := frame) fun f hf => by
      rw [hL, Cfg.width_of_admitted ha hf]
      exact hfits f hf
    exact ⟨_, _, exec_decode_of_admitted ha frame, congrArg some hok⟩

end Sys2Proof.Machine

/-! PROOFS. Decode and encode (R50 to R52, R55, R58, R60, R61). -/

namespace Sys2Proof

/-! ### The encoder against the decoder -/

/-- Every operation is one of the six `BYTE` operations (R52) or one of the four that have no state condition. -/
theorem Instr.byteOpCases {motive : Instr → Prop} (i : Instr) (reset : motive .reset) (idle : motive .idle)
    (byteOp : ∀ (op : ByteOp) (b : Byte), motive (op.instr b)) (decode : ∀ frame, motive (.decode frame))
    (chunk : ∀ bytes, motive (.chunk bytes)) : motive i := by
  cases i with
  | reset => exact reset
  | idle => exact idle
  | seekMatch b => exact byteOp .seekMatch b
  | seekAccept b => exact byteOp .seekAccept b
  | seekMismatch b => exact byteOp .seekMismatch b
  | fill b => exact byteOp .fill b
  | fillReady b => exact byteOp .fillReady b
  | fillReject b => exact byteOp .fillReject b
  | decode frame => exact decode frame
  | chunk bytes => exact chunk bytes

@[simp] theorem encode_byteOp (op : ByteOp) (b : Byte) : encode (op.instr b) = .stepWord (byteWord b) := by
  cases op <;> rfl

/-- The wires of a port carry back the bytes put on them (R55): the lowest byte is the remainder by 256. -/
theorem unpackFrame_packFrame (frame : List Byte) : unpackFrame frame.length (packFrame frame) = frame := by
  induction frame with
  | nil => rfl
  | cons b rest ih =>
    have hlow : BitVec.ofNat 8 (b.toNat + 256 * packFrame rest) = b := by
      refine BitVec.eq_of_toNat_eq ?_
      rw [BitVec.toNat_ofNat, Nat.add_mul_mod_self_left, Nat.mod_eq_of_lt b.isLt]
    have hhigh : (b.toNat + 256 * packFrame rest) / 256 = packFrame rest := by
      have hb := b.isLt
      omega
    rw [List.length_cons, packFrame, unpackFrame, hlow, hhigh, ih]

/-- Settles O3: a `BYTE` word selects the operation whose state condition holds (`selectByte_eq_some_iff`), and the
decoder port gives back its frame (`unpackFrame_packFrame`). -/
theorem encodeDecodeRoundTrip : Obligations.EncodeDecodeRoundTrip := by
  intro v i hsel
  cases i using Instr.byteOpCases with
  | reset => simp only [encode, decode, decodeStepWord_resetWord]
  | idle => simp only [encode, decode, decodeStepWord_idleWord]
  | byteOp op b => rw [encode_byteOp, decode_byteWord_of_selected (selectByte_eq_some_iff.mpr hsel)]
  | decode frame => rw [encode, decode, unpackFrame_packFrame]
  | chunk bytes => rfl

/-! ### What the decoder can answer -/

/-- A step word decodes to RESET, to IDLE, or to the `BYTE` operation that the view selects; the first is what every
word from `0x200` on decodes to (R51). -/
theorem decode_stepWord_cases {v : SelectView} {w : StepWord} {i : Instr} (h : decode v (.stepWord w) = .ok i) :
    i = .reset ∨ w.toNat < 0x200 ∧ (i = .idle ∨ ∃ op b, selectByte v b = some op ∧ i = op.instr b) := by
  obtain ⟨hreset, hidle, -, hrange⟩ := stepWordDecode v w
  rcases hrange with hw | hw | ⟨b, hw⟩
  · exact .inl (Except.ok.inj (h.symm.trans (hreset hw)))
  · exact .inr ⟨by omega, .inl (Except.ok.inj (h.symm.trans (hidle hw)))⟩
  · have hb := b.isLt
    obtain rfl : w = byteWord b := BitVec.eq_of_toNat_eq (hw.trans (toNat_byteWord b).symm)
    refine .inr ⟨by omega, .inr ?_⟩
    cases hsel : selectByte v b with
    | none => simp only [decode, decodeStepWord_byteWord, hsel, reduceCtorEq] at h
    | some op => exact ⟨op, b, hsel, Except.ok.inj (h.symm.trans (decode_byteWord_of_selected hsel))⟩

theorem selectedIn_of_decode {v : SelectView} {x : PortInput} {i : Instr} (h : decode v x = .ok i) :
    i.selectedIn v = true := by
  cases x with
  | stepWord w =>
    obtain rfl | ⟨-, rfl | ⟨op, b, hsel, rfl⟩⟩ := decode_stepWord_cases h
    · rfl
    · rfl
    · exact selectByte_selectedIn hsel
  | ingest bytes =>
    cases h
    rfl
  | decFrame len bits =>
    cases h
    rfl

/-- Settles O4: a decoded `BYTE` operation is the selected one, and the second clause is the round trip of the first. -/
theorem decodedIsSelected : Obligations.DecodedIsSelected :=
  fun v _ i h => ⟨selectedIn_of_decode h, encodeDecodeRoundTrip v i (selectedIn_of_decode h)⟩

/-- Settles O2: every clause is one word written out, and the decoder is evaluated on it. -/
theorem knownWords : Obligations.KnownWords := by
  unfold Obligations.KnownWords
  decide

end Sys2Proof

/-! PROOFS. What a step runs, what no step writes or reads, and what it can leave on the ports (R25, R27, R54, R65, R99,
R107). -/

namespace Sys2Proof.Machine

/-! ### The operation of a step (R51, R107) -/

theorem step_of_decode {s : State} {x : PortInput} {rest : List PortInput} {i : Instr} (hin : s.input = x :: rest)
    (hdec : decode s.view x = .ok i) : step s = exec i { s with input := rest } := by
  have hfetch : fetch s = .ok i := by rw [fetch, hin, ← hdec]
  have hpop : s.popInput = { s with input := rest } := by rw [State.popInput, hin, List.tail_cons]
  rw [step, hfetch, hpop]

/-- A stalled transport presents nothing, which is IDLE (R107). -/
theorem step_of_input_nil {s : State} (hin : s.input = []) : step s = exec .idle s := by
  have hfetch : fetch s = .ok .idle := by rw [fetch, hin]
  have hpop : s.popInput = s := by rw [State.popInput, hin, List.tail_nil, ← hin]
  rw [step, hfetch, hpop]

theorem step_of_decode_error {s : State} {x : PortInput} {rest : List PortInput} {why : DecodeReject}
    (hin : s.input = x :: rest) (hdec : decode s.view x = .error why) : step s = .fault (.inputRejected why) := by
  have hfetch : fetch s = .error why := by rw [fetch, hin, ← hdec]
  rw [step, hfetch]

/-- Settles O8: one lemma for each answer of the decoder. -/
theorem stepRunsDecoded : Obligations.StepRunsDecoded :=
  fun _ => ⟨fun _ _ _ => step_of_decode, step_of_input_nil, fun _ _ _ => step_of_decode_error⟩

/-- Settles O13: each step is IDLE, which empties the outputs and leaves the next step in the same position. -/
theorem stalledTransport : Obligations.StalledTransport := by
  intro s k ha hin
  have hstep : step s = .next s.clearOut := (step_of_input_nil hin).trans (onInstance_admitted ha _)
  induction k generalizing s with
  | zero => exact core_run_succ_of_step hstep 0
  | succ k ih =>
    have hnext : step s.clearOut = .next s.clearOut :=
      (step_of_input_nil (s := s.clearOut) hin).trans (onInstance_admitted ha _)
    exact (core_run_succ_of_step hstep (k + 1)).trans (ih s.clearOut ha hin hnext)

/-! ### A `BYTE` operation that is not selected (R52) -/

theorem exec_byteOp_of_not_selectedIn {op : ByteOp} {b : Byte} {s : State} (ha : s.cfg.Admitted)
    (hsel : (op.instr b).selectedIn s.view = false) : exec (op.instr b) s = .refused .notSelected := by
  have hcond : ¬ (op.instr b).selectedIn s.view = true := Bool.eq_false_iff.mp hsel
  cases op <;> exact (onInstance_admitted ha _).trans (if_neg hcond)

/-- Settles O6: only the `BYTE` operations have a state condition, and they check it before anything else. -/
theorem notSelectedStops : Obligations.NotSelectedStops := by
  intro i s ha hsel
  cases i using Instr.byteOpCases with
  | byteOp op b => exact exec_byteOp_of_not_selectedIn ha hsel
  | reset => cases hsel
  | idle => cases hsel
  | decode frame => cases hsel
  | chunk bytes => cases hsel

/-! ### The configuration and the earlier outputs (R25, R27) -/

theorem exec_cfg {i : Instr} {s t : State} (h : exec i s = .next t) : t.cfg = s.cfg := by
  cases i using Instr.byteOpCases with
  | reset =>
    obtain ⟨-, rfl⟩ := execReset_next h
    rfl
  | idle =>
    obtain ⟨-, rfl⟩ := execIdle_next h
    rfl
  | byteOp op b =>
    obtain ⟨-, p, buf, o, -, rfl⟩ := exec_byteOp_eq_afterByte h
    rfl
  | decode frame =>
    obtain ⟨-, rfl⟩ := execDecode_next h
    rfl
  | chunk bytes =>
    obtain ⟨-, h⟩ := execChunk_next.mp h
    obtain ⟨hcfg, -⟩ := ingest_frame h
    exact hcfg

/-- Settles O10: a step is an operation in a state with the same configuration, and no operation writes it. -/
theorem configurationFixed : Obligations.ConfigurationFixed := by
  intro s t h
  obtain ⟨i, -, hexec⟩ := step_next h
  exact (exec_cfg hexec).trans s.popInput_cfg

/-- Every operation empties the outputs before it reads anything of the state. -/
theorem exec_clearOut (i : Instr) (s : State) : exec i s.clearOut = exec i s := by
  cases i using Instr.byteOpCases with
  | reset => rfl
  | idle => rfl
  | byteOp op b => cases op <;> rfl
  | decode frame => rfl
  | chunk bytes => exact congrArg (onInstance s) (ingest_clearOut bytes s)

/-- Settles O11: the decoder does not see the outputs, and every operation clears them first (`exec_clearOut`). -/
theorem outputsNotCarried : Obligations.OutputsNotCarried := by
  intro s o
  have hfetch : fetch { s with out := o } = fetch s := rfl
  rw [step, step, hfetch]
  cases fetch s with
  | error why => rfl
  | ok i => exact (exec_clearOut i _).symm.trans (exec_clearOut i s.popInput)

/-! ### Events and diagnostics (R54, R65, R99) -/

/-- A `BYTE` operation leaves at most one event or one diagnostic, and a diagnostic only if it is SEEK_MISMATCH. -/
theorem exec_byteOp_outputs {op : ByteOp} {b : Byte} {s t : State} (h : exec (op.instr b) s = .next t) :
    t.out.events.length + t.out.diags.length ≤ 1 ∧ (op ≠ .seekMismatch → t.out.diags = []) := by
  cases op with
  | seekMatch =>
    obtain ⟨-, m, -, -, -, -, rfl⟩ := execSeekMatch_next h
    exact ⟨Nat.zero_le 1, fun _ => rfl⟩
  | seekAccept =>
    obtain ⟨-, -, -, rfl⟩ := execSeekAccept_next h
    exact ⟨Nat.zero_le 1, fun _ => rfl⟩
  | seekMismatch =>
    obtain ⟨-, m, -, -, rfl⟩ := execSeekMismatch_next h
    exact ⟨le_rfl, fun hne => absurd rfl hne⟩
  | fill =>
    obtain ⟨-, r, -, -, -, rfl⟩ := execFill_next h
    exact ⟨Nat.zero_le 1, fun _ => rfl⟩
  | fillReady =>
    obtain ⟨-, -, -, rfl⟩ := execFillReady_next h
    exact ⟨le_rfl, fun _ => rfl⟩
  | fillReject =>
    obtain ⟨-, -, -, rfl⟩ := execFillReject_next h
    exact ⟨le_rfl, fun _ => rfl⟩

/-- Settles O12: a step word is RESET, IDLE or a selected `BYTE` operation (`decode_stepWord_cases`); the first two
leave nothing. -/
theorem oneOutputPerStep : Obligations.OneOutputPerStep := by
  intro s t w rest hin h
  obtain ⟨i, hfetch, hexec⟩ := step_next h
  rw [fetch, hin] at hfetch
  obtain rfl | ⟨hw, rfl | ⟨op, b, -, rfl⟩⟩ := decode_stepWord_cases hfetch
  · obtain ⟨-, rfl⟩ := execReset_next hexec
    exact ⟨Nat.zero_le 1, fun _ => ⟨rfl, rfl⟩⟩
  · obtain ⟨-, rfl⟩ := execIdle_next hexec
    exact ⟨Nat.zero_le 1, fun _ => ⟨rfl, rfl⟩⟩
  · obtain ⟨hone, -⟩ := exec_byteOp_outputs hexec
    exact ⟨hone, fun hge => absurd hw (Nat.not_lt.mpr hge)⟩

theorem exec_diags_eq_nil {i : Instr} {s t : State} (hchunk : ∀ bytes, i ≠ .chunk bytes)
    (hmismatch : ∀ b, i ≠ .seekMismatch b) (h : exec i s = .next t) : t.out.diags = [] := by
  cases i using Instr.byteOpCases with
  | reset =>
    obtain ⟨-, rfl⟩ := execReset_next h
    rfl
  | idle =>
    obtain ⟨-, rfl⟩ := execIdle_next h
    rfl
  | byteOp op b =>
    obtain ⟨-, hdiags⟩ := exec_byteOp_outputs h
    exact hdiags fun hop => hmismatch b (congrArg (ByteOp.instr b) hop)
  | decode frame =>
    obtain ⟨-, rfl⟩ := execDecode_next h
    rfl
  | chunk bytes => exact absurd rfl (hchunk bytes)

/-- Settles O53: the port shows the first diagnostic, of which SEEK_MISMATCH leaves one and any other operation none; a
count of matched bytes fits in its two wires. -/
theorem diagnosticOnlyOnMismatch : Obligations.DiagnosticOnlyOnMismatch := by
  refine ⟨fun i s t hchunk hmismatch h => ?other, fun b s t h => ?mismatch⟩
  case other =>
    have hdiags := exec_diags_eq_nil hchunk hmismatch h
    have hport : t.diagPort = { valid := 0, count := 0 } := by rw [State.diagPort, hdiags, List.head?_nil, diagPort]
    exact ⟨hdiags, by rw [hport], by rw [hport]⟩
  case mismatch =>
    obtain ⟨-, m, hp, -, rfl⟩ := execSeekMismatch_next h
    exact ⟨m, hp, rfl, rfl, Nat.mod_eq_of_lt m.isLt⟩

/-! ### Several instances (R30, R104) -/

/-- If a step of an instance answers, only that instance changed, by its own step. -/
theorem stepInstance_next {instances after : List State} {k : Nat}
    (h : stepInstance instances k = some (.next after)) :
    ∃ s t, instances[k]? = some s ∧ step s = .next t ∧ after = instances.set k t := by
  unfold stepInstance at h
  cases hs : instances[k]? with
  | none => simp [hs] at h
  | some s =>
    cases ht : step s with
    | next t => exact ⟨s, t, rfl, ht, by simpa [hs, ht, eq_comm] using h⟩
    | fault r => simp [hs, ht] at h
    | refused r => simp [hs, ht] at h

/-- Settles O55: the step sets the one place of the list that it names. -/
theorem instancesIndependent : Obligations.InstancesIndependent := by
  intro instances after k h
  obtain ⟨s, t, hs, ht, rfl⟩ := stepInstance_next h
  obtain ⟨hk, -⟩ := List.getElem?_eq_some_iff.mp hs
  exact ⟨List.length_set, fun j hj => List.getElem?_set_ne hj.symm, s, t, hs, ht, List.getElem?_set_self hk⟩

end Sys2Proof.Machine

/-! PROOFS. What every step keeps and what no output shows: the invariant of reachable states (R18, R21, R22, R75), the
creation of an instance (R109, R111), the stale bytes of `BUF` (R22), and back-to-back frames (R75). -/

namespace Sys2Proof.Machine

/-! ### The invariant of reachable states (R18, R21, R22, R75) -/

/-- In strict mode a block that fills has the header in `BUF`, and at most the bytes behind it are missing (R75). -/
def State.StrictHeader (s : State) : Prop :=
  ∀ r, s.cfg.strict = true → s.phase = .filling r → r + 4 ≤ s.n ∧ s.HeaderPrefix 4

theorem State.inv_iff {s : State} : s.Inv ↔ s.Sound ∧ s.SeekPrefix ∧ s.StrictHeader :=
  ⟨fun h => ⟨h.sound, h.seekPrefix, h.strictHeader⟩, fun ⟨hs, hprefix, hstrict⟩ => ⟨hs, hprefix, hstrict⟩⟩

theorem State.strictHeader_of_seeking {s : State} {m : Fin 4} (hp : s.phase = .seeking m) : s.StrictHeader :=
  fun _ _ hr => nomatch hp.symm.trans hr

/-- Neither property speaks of the ports. -/
theorem State.Sound.withPorts {s : State} (hs : s.Sound) (o : Outputs) (l : List PortInput) :
    ({ s with out := o, input := l } : State).Sound :=
  ⟨hs.admitted, hs.bufWf, hs.phaseLegal⟩

theorem State.Inv.withPorts {s : State} (h : s.Inv) (o : Outputs) (l : List PortInput) :
    ({ s with out := o, input := l } : State).Inv :=
  ⟨h.sound.withPorts o l, h.seekPrefix, h.strictHeader⟩

theorem State.inv_of_seeking_zero {s : State} (hs : s.Sound) (hp : s.phase = .seeking 0) : s.Inv :=
  State.inv_iff.mpr ⟨hs, State.seekPrefix_of_seeking_zero hp, State.strictHeader_of_seeking hp⟩

theorem State.initial_inv {c : Cfg} (ha : c.Admitted) : (State.initial c).Inv :=
  State.inv_of_seeking_zero (State.initial_sound ha) (State.initial_phase c)

/-- Only SEEK_ACCEPT starts the filling in strict mode, when its byte completes the header; FILL writes behind it. -/
theorem exec_byteOp_keeps_strictHeader {op : ByteOp} {b : Byte} {s t : State} (hinv : s.Inv)
    (h : exec (op.instr b) s = .next t) : t.StrictHeader := by
  have hN : 5 ≤ s.n := Cfg.five_le_of_admitted hinv.sound.admitted
  cases op with
  | seekMatch =>
    obtain ⟨-, m, -, -, -, -, rfl⟩ := execSeekMatch_next h
    exact State.strictHeader_of_seeking rfl
  | seekAccept =>
    obtain ⟨-, hp, hb, rfl⟩ := execSeekAccept_next h
    rintro r - hr
    obtain rfl : s.n - 4 = r := Phase.filling.inj hr
    exact ⟨show s.n - 4 + 4 ≤ s.n by omega, (hinv.seekPrefix 3 hp).write hinv.sound.bufWf hb rfl rfl⟩
  | seekMismatch =>
    obtain ⟨-, m, -, -, rfl⟩ := execSeekMismatch_next h
    exact State.strictHeader_of_seeking rfl
  | fill =>
    obtain ⟨-, r, hp, -, -, rfl⟩ := execFill_next h
    intro r' hstrict hr'
    obtain rfl : r - 1 = r' := Phase.filling.inj hr'
    obtain ⟨hle, hheader⟩ := hinv.strictHeader r hstrict hp
    exact ⟨show r - 1 + 4 ≤ s.n by omega, hheader.afterByte_write (by omega) _ b _⟩
  | fillReady =>
    obtain ⟨-, -, -, rfl⟩ := execFillReady_next h
    intro r hstrict hr
    exact nomatch (rearmPhase_of_strict hstrict).symm.trans hr
  | fillReject =>
    obtain ⟨-, -, -, rfl⟩ := execFillReject_next h
    exact State.strictHeader_of_seeking rfl

theorem exec_byteOp_keeps_inv {op : ByteOp} {b : Byte} {s t : State} (hinv : s.Inv)
    (h : exec (op.instr b) s = .next t) : t.Inv :=
  State.inv_iff.mpr ⟨exec_byteOp_keeps_sound hinv.sound h,
    exec_byteOp_keeps_seekPrefix hinv.sound hinv.seekPrefix h, exec_byteOp_keeps_strictHeader hinv h⟩

/-- What does not speak of the ports, holds of every new instance and is kept by the `BYTE` operations is kept by every
step. -/
theorem step_keeps {P : State → Prop} (hports : ∀ s o l, P s → P { s with out := o, input := l })
    (hinitial : ∀ c : Cfg, c.Admitted → P (State.initial c))
    (hbyte : ∀ {op : ByteOp} {b s t}, P s → exec (op.instr b) s = .next t → P t) {s t : State} (hs : P s)
    (h : step s = .next t) : P t := by
  obtain ⟨i, -, hexec⟩ := step_next h
  cases i using Instr.byteOpCases with
  | reset =>
    obtain ⟨ha, rfl⟩ := execReset_next hexec
    exact hports _ Outputs.none s.input.tail (hinitial s.cfg ha)
  | idle =>
    obtain ⟨-, rfl⟩ := execIdle_next hexec
    exact hports s Outputs.none s.input.tail hs
  | byteOp op b => exact hbyte (hports s s.out s.input.tail hs) hexec
  | decode frame =>
    obtain ⟨-, rfl⟩ := execDecode_next hexec
    exact hports s _ s.input.tail hs
  | chunk bytes =>
    obtain ⟨-, hingest⟩ := execChunk_next.mp hexec
    refine ingest_keeps (fun s o => hports s o s.input) (fun hs h => ?_) (hports s s.out s.input.tail hs) hingest
    obtain ⟨op, -, hop⟩ := byteStep_next h
    exact hbyte hs hop

/-- Settles O14: both properties do not speak of the ports, hold of new instances, and are kept by the `BYTE`
operations; the invariant needs its strict part to know that FILL writes behind the header. -/
theorem stepKeepsInvariant : Obligations.StepKeepsInvariant :=
  fun _ _ h =>
    ⟨fun hs => step_keeps (fun _ o l hs => hs.withPorts o l) (fun _ => State.initial_sound)
        exec_byteOp_keeps_sound hs h,
      fun hinv => step_keeps (fun _ o l hinv => hinv.withPorts o l) (fun _ => State.initial_inv)
        exec_byteOp_keeps_inv hinv h⟩

/-- Settles O15: the reset state is the new instance of an admitted configuration. -/
theorem resetMeetsInvariant : Obligations.ResetMeetsInvariant :=
  State.initial_inv (by decide)

/-! ### Creation of an instance (R109, R111) -/

theorem State.create_eq_ok {c : Cfg} {nMax : Nat} (ha : c.Admitted) (hmax : c.frameSize ≤ (nMax : Int)) :
    State.create nMax c = .ok (State.initial c) := by
  have hn : c.n ≤ nMax := Int.ofNat_le.mp ((Cfg.n_eq_of_admitted ha).le.trans hmax)
  rw [State.create, show c.configError = none from ha]
  exact if_pos hn

theorem State.create_eq_error {c : Cfg} {nMax : Nat} (ha : c.Admitted) (hmax : (nMax : Int) < c.frameSize) :
    State.create nMax c = .error .frameSizeAboveMax := by
  have hn : nMax < c.n := Int.ofNat_lt.mp (hmax.trans_eq (Cfg.n_eq_of_admitted ha).symm)
  rw [State.create, show c.configError = none from ha]
  exact if_neg (Nat.not_le.mpr hn)

/-- Settles O51: an admitted configuration passes the check, so the bound decides; the instance created is the initial
state. -/
theorem createdInstance : Obligations.CreatedInstance :=
  fun _ c =>
    ⟨fun ha hmax => ⟨State.initial c, State.create_eq_ok ha hmax, State.initial_inv ha, rfl,
      State.PHASE_of_seeking (State.initial_phase c), Memory.read_nil, rfl, rfl⟩, State.create_eq_error⟩

/-! ### Strict mode rejects nothing (R75) -/

/-- In strict mode the header of a candidate stands in `BUF`, which FILL_REJECT excludes. -/
theorem exec_byteOp_not_rejected {op : ByteOp} {b : Byte} {s t : State} (hinv : s.Inv) (hstrict : s.cfg.strict = true)
    (h : exec (op.instr b) s = .next t) (why : RejectReason) : Event.frameRejected why ∉ t.out.events := by
  cases op with
  | seekMatch =>
    obtain ⟨-, m, -, -, -, -, rfl⟩ := execSeekMatch_next h
    exact List.not_mem_nil
  | seekAccept =>
    obtain ⟨-, -, -, rfl⟩ := execSeekAccept_next h
    exact List.not_mem_nil
  | seekMismatch =>
    obtain ⟨-, m, -, -, rfl⟩ := execSeekMismatch_next h
    exact List.not_mem_nil
  | fill =>
    obtain ⟨-, r, -, -, -, rfl⟩ := execFill_next h
    exact List.not_mem_nil
  | fillReady =>
    obtain ⟨-, -, -, rfl⟩ := execFillReady_next h
    exact fun hmem => nomatch List.mem_singleton.mp hmem
  | fillReject =>
    obtain ⟨-, hp, hbad, -⟩ := execFillReject_next h
    have hcompatible := hinv.strict_eq_false_of_badHeader hp (mt (headerValue_eq_iff ..).mpr hbad)
    exact absurd hstrict (ne_true_of_eq_false hcompatible)

theorem ingest_not_rejected {bytes : List Byte} {s t : State} (hinv : s.Inv) (hstrict : s.cfg.strict = true)
    (h : ingest bytes s = .next t) (why : RejectReason) : Event.frameRejected why ∉ t.out.events := by
  induction bytes generalizing s t with
  | nil =>
    cases h
    exact List.not_mem_nil
  | cons b rest ih =>
    obtain ⟨s1, s2, h1, h2, rfl⟩ := ingest_cons_next.mp h
    obtain ⟨op, -, hexec⟩ := byteStep_next h1
    have hcfg := exec_cfg hexec
    have hfirst := exec_byteOp_not_rejected hinv hstrict hexec why
    have hrest := ih (exec_byteOp_keeps_inv hinv hexec) (hcfg ▸ hstrict) h2
    rw [State.prependOut_out, Outputs.append_events, List.mem_append]
    exact not_or_intro hfirst hrest

/-- Settles O33: a step's events are those of its `BYTE` operations, each from a state that meets the invariant. -/
theorem strictNeverRejects : Obligations.StrictNeverRejects := by
  intro s t hinv hstrict h why
  obtain ⟨i, -, hexec⟩ := step_next h
  have hinv' : s.popInput.Inv := hinv.withPorts s.out s.input.tail
  cases i using Instr.byteOpCases with
  | reset =>
    obtain ⟨-, rfl⟩ := execReset_next hexec
    exact List.not_mem_nil
  | idle =>
    obtain ⟨-, rfl⟩ := execIdle_next hexec
    exact List.not_mem_nil
  | byteOp op b => exact exec_byteOp_not_rejected hinv' hstrict hexec why
  | decode frame =>
    obtain ⟨-, rfl⟩ := execDecode_next hexec
    exact List.not_mem_nil
  | chunk bytes =>
    obtain ⟨-, hingest⟩ := execChunk_next.mp hexec
    exact ingest_not_rejected hinv' hstrict hingest why

/-! ### Stale bytes (R22) -/

/-- Two sound states that differ, as far as a chunk can see, in stale bytes of `BUF` only. -/
structure State.Alike (s s' : State) : Prop where
  sound      : s.Sound
  sound'     : s'.Sound
  cfg        : s.cfg = s'.cfg
  phase      : s.phase = s'.phase
  samePrefix : s.SamePrefix s'

/-- At the start of a frame every byte of `BUF` is stale. -/
theorem State.FrameStart.samePrefix {s : State} (h : s.FrameStart) (s' : State) : s.SamePrefix s' := by
  intro i k hk hi
  have hzero : s.writeIndex = some 0 := by
    rcases h with hp | hp
    · exact (State.writeIndex_of_filling hp le_rfl).trans (congrArg some (Nat.sub_self s.n))
    · exact State.writeIndex_of_seeking hp
  obtain rfl : 0 = k := Option.some.inj (hzero.symm.trans hk)
  exact absurd hi (Nat.not_lt_zero i)

section
variable {s s' : State}

theorem State.Alike.n_eq (h : s.Alike s') : s'.n = s.n := congrArg Cfg.n h.cfg.symm

theorem State.Alike.withPorts (h : s.Alike s') (o o' : Outputs) :
    ({ s with out := o } : State).Alike { s' with out := o' } :=
  ⟨h.sound.withPorts o s.input, h.sound'.withPorts o' s'.input, h.cfg, h.phase, h.samePrefix⟩

/-- The byte written at the write pointer makes the defined prefix one byte longer in both. -/
theorem State.Alike.read_write_eq (h : s.Alike s') {i : Nat} (hi : s.writeIndex = some i) (b : Byte) {j : Nat}
    (hj : j < i + 1) : (s.buf.write i b).read j = (s'.buf.write i b).read j := by
  rw [Memory.read_write h.sound.bufWf, Memory.read_write h.sound'.bufWf]
  split
  case isTrue => rfl
  case isFalse hne => exact h.samePrefix j i hi (by omega)

/-- The header is read at completion alone, when all of it has been written. -/
theorem State.Alike.headerOk_eq (h : s.Alike s') (hp : s.phase = .filling 1) : s.view.headerOk = s'.view.headerOk := by
  have hN : 5 ≤ s.n := Cfg.five_le_of_admitted h.sound.admitted
  have hi := State.writeIndex_of_filling hp (by omega)
  have hle : le s.buf.read 0 4 = le s'.buf.read 0 4 :=
    (le_inj _ _ 0 0 4).mpr fun j hj => h.samePrefix _ _ hi (by omega)
  rw [State.view_headerOk, State.view_headerOk, decide_eq_decide, headerValue_eq_iff, headerValue_eq_iff, hle, h.cfg]

theorem State.Alike.selectByte_eq (h : s.Alike s') (b : Byte) : selectByte s.view b = selectByte s'.view b := by
  cases hp : s.phase with
  | seeking m =>
    have hp' := h.phase.symm.trans hp
    rw [selectByte_of_seeking hp, selectByte_of_seeking hp', State.view_expected s m hp, State.view_expected s' m hp',
      h.cfg]
  | filling r =>
    have hp' := h.phase.symm.trans hp
    obtain ⟨hr, -⟩ := legal_filling.mp (hp ▸ h.sound.phaseLegal)
    rw [selectByte_of_filling hp hr, selectByte_of_filling hp' hr]
    by_cases hone : r = 1
    · subst hone
      rw [h.headerOk_eq hp]
    · rw [if_neg hone, if_neg hone]

/-- A `BYTE` operation leaves the same phase and outputs in both, and the same bytes below the new write pointer. -/
theorem State.Alike.exec_byteOp (h : s.Alike s') {op : ByteOp} {b : Byte} {t t' : State}
    (ht : exec (op.instr b) s = .next t) (ht' : exec (op.instr b) s' = .next t') :
    t.phase = t'.phase ∧ t.SamePrefix t' ∧ t.out = t'.out := by
  have hN : 5 ≤ s.n := Cfg.five_le_of_admitted h.sound.admitted
  have hn := h.n_eq
  cases op with
  | seekMatch =>
    obtain ⟨-, m, hp, hm, -, -, rfl⟩ := execSeekMatch_next ht
    obtain ⟨-, m', hp', -, -, -, rfl⟩ := execSeekMatch_next ht'
    obtain rfl : m = m' := Phase.seeking.inj (hp.symm.trans (h.phase.trans hp'))
    refine ⟨rfl, fun i k hk hi => h.read_write_eq (State.writeIndex_of_seeking hp) b ?_, rfl⟩
    obtain rfl : (m + 1).val = k := Option.some.inj hk
    exact val_succ_of_lt_three hm ▸ hi
  | seekAccept =>
    obtain ⟨-, hp, -, rfl⟩ := execSeekAccept_next ht
    obtain ⟨-, -, -, rfl⟩ := execSeekAccept_next ht'
    refine ⟨congrArg (fun n => Phase.filling (n - 4)) hn.symm,
      fun i k hk hi => h.read_write_eq (State.writeIndex_of_seeking hp) b ?_, rfl⟩
    obtain ⟨-, hkN⟩ := writeIndex_filling rfl hk
    have hkN : k = s.n - (s.n - 4) := hkN
    show i < 3 + 1
    omega
  | seekMismatch =>
    obtain ⟨-, m, hp, -, rfl⟩ := execSeekMismatch_next ht
    obtain ⟨-, m', hp', -, rfl⟩ := execSeekMismatch_next ht'
    obtain rfl : m = m' := Phase.seeking.inj (hp.symm.trans (h.phase.trans hp'))
    exact ⟨rfl, State.FrameStart.samePrefix (.inr rfl) _, rfl⟩
  | fill =>
    obtain ⟨-, r, hp, hr, hrn, rfl⟩ := execFill_next ht
    obtain ⟨-, r', hp', -, -, rfl⟩ := execFill_next ht'
    obtain rfl : r = r' := Phase.filling.inj (hp.symm.trans (h.phase.trans hp'))
    rw [hn]
    refine ⟨rfl, fun i k hk hi => h.read_write_eq (State.writeIndex_of_filling hp hrn) b ?_, rfl⟩
    obtain ⟨-, hkN⟩ := writeIndex_filling rfl hk
    have hkN : k = s.n - (r - 1) := hkN
    omega
  | fillReady =>
    obtain ⟨-, hp, -, rfl⟩ := execFillReady_next ht
    obtain ⟨-, -, -, rfl⟩ := execFillReady_next ht'
    have hi := State.writeIndex_of_filling hp (by omega)
    have hsnap : (s.buf.write (s.n - 1) b).snapshot s.n = (s'.buf.write (s'.n - 1) b).snapshot s'.n := by
      rw [hn]
      refine List.map_congr_left fun j hj => h.read_write_eq hi b ?_
      have hj := List.mem_range.mp hj
      omega
    exact ⟨congrArg rearmPhase h.cfg, (State.frameStart_of_rearmPhase rfl).samePrefix _, by rw [hsnap]⟩
  | fillReject =>
    obtain ⟨-, -, -, rfl⟩ := execFillReject_next ht
    obtain ⟨-, -, -, rfl⟩ := execFillReject_next ht'
    exact ⟨rfl, State.FrameStart.samePrefix (.inr rfl) _, rfl⟩

theorem State.Alike.exists_byteStep (h : s.Alike s') (b : Byte) :
    ∃ t t', byteStep b s = .next t ∧ byteStep b s' = .next t' ∧ t.Alike t' ∧ t.out = t'.out := by
  obtain ⟨op, hop⟩ := exists_selectByte_eq_some h.sound b
  have hop' := (h.selectByte_eq b).symm.trans hop
  obtain ⟨t, ht⟩ := exec_byteOp_of_sound h.sound (selectByte_eq_some_iff.mp hop)
  obtain ⟨t', ht'⟩ := exec_byteOp_of_sound h.sound' (selectByte_eq_some_iff.mp hop')
  obtain ⟨hphase, hprefix, hout⟩ := h.exec_byteOp ht ht'
  have hcfg : t.cfg = t'.cfg := (exec_cfg ht).trans (h.cfg.trans (exec_cfg ht').symm)
  exact ⟨t, t', (byteStep_eq_exec hop).trans ht, (byteStep_eq_exec hop').trans ht',
    ⟨exec_byteOp_keeps_sound h.sound ht, exec_byteOp_keeps_sound h.sound' ht', hcfg, hphase, hprefix⟩, hout⟩

theorem State.Alike.exists_ingest (h : s.Alike s') (bytes : List Byte) :
    ∃ t t', ingest bytes s = .next t ∧ ingest bytes s' = .next t' ∧ t.phase = t'.phase ∧ t.out = t'.out := by
  induction bytes generalizing s s' with
  | nil => exact ⟨_, _, ingest_nil s, ingest_nil s', h.phase, rfl⟩
  | cons b rest ih =>
    obtain ⟨s1, s1', h1, h1', halike, hout⟩ := h.exists_byteStep b
    obtain ⟨s2, s2', h2, h2', hphase, hout'⟩ := ih halike
    refine ⟨_, _, ingest_cons_next.mpr ⟨s1, s2, h1, h2, rfl⟩, ingest_cons_next.mpr ⟨s1', s2', h1', h2', rfl⟩,
      hphase, ?_⟩
    rw [State.prependOut_out, State.prependOut_out, hout, hout']

end

/-- Settles O20: a byte below the write pointer is all that a step can read of `BUF`, and a step extends that prefix by
the byte it stores or forgets it (`State.Alike.exec_byteOp`). -/
theorem staleBytesUnobservable : Obligations.StaleBytesUnobservable := by
  intro s s' bytes hs hs' hcfg hphase hprefix
  obtain ⟨t, t', ht, ht', hp, hout⟩ := State.Alike.exists_ingest ⟨hs, hs', hcfg, hphase, hprefix⟩ bytes
  exact ⟨t, t', exec_chunk_of_ingest hs ht, exec_chunk_of_ingest hs' ht', by rw [hout], by rw [hout], hp⟩

/-! ### Back-to-back frames (R75) -/

section
variable {s t : State}

/-- A diagnostic costs its byte: it brings the next event no nearer. -/
theorem byteStep_outputs_le {b : Byte} (h : byteStep b s = .next t) :
    t.out.events.length * s.n + t.out.diags.length + s.missing ≤ t.missing + 1 := by
  obtain ⟨op, -, hexec⟩ := byteStep_next h
  by_cases hop : op = .seekMismatch
  · subst hop
    obtain ⟨-, m, hp, -, rfl⟩ := execSeekMismatch_next hexec
    rw [State.missing_of_seeking hp, State.missing_of_seeking rfl]
    show 0 * s.n + 1 + (s.n - m.val) ≤ s.n + 1
    omega
  · have hevents := byteStep_events_le h
    obtain ⟨-, hdiags⟩ := exec_byteOp_outputs hexec
    rwa [hdiags hop, List.length_nil, Nat.add_zero]

/-- Each event takes `N` bytes of a chunk, and each diagnostic one byte more. -/
theorem ingest_outputs_le {bytes : List Byte} (h : ingest bytes s = .next t) :
    t.out.events.length * s.n + t.out.diags.length + s.missing ≤ t.missing + bytes.length := by
  induction bytes generalizing s t with
  | nil =>
    cases h
    have hmissing : s.clearOut.missing = s.missing := rfl
    simp [hmissing]
  | cons b rest ih =>
    obtain ⟨s1, s2, h1, h2, rfl⟩ := ingest_cons_next.mp h
    have hfirst := byteStep_outputs_le h1
    have hrest := ih h2
    have hmissing : (s2.prependOut s1.out).missing = s2.missing := rfl
    rw [byteStep_n h1] at hrest
    simp only [hmissing, State.prependOut_out, Outputs.append_events, Outputs.append_diags, List.length_append,
      Nat.add_mul, List.length_cons]
    omega

/-- Valid frames are emitted one by one, and the last one re-arms the block. -/
theorem ingest_validFrames {frames : List (List Byte)} (hs : s.Sound) (hstart : s.FrameStart)
    (hframes : ∀ g, g ∈ frames → ValidFrame s.cfg g) :
    ∃ t, ingest frames.flatten s = .next t ∧ t.out.events = frames.map Event.frameReady ∧
      (frames ≠ [] → t.phase = rearmPhase s.cfg) := by
  induction frames generalizing s with
  | nil => exact ⟨s.clearOut, ingest_nil s, rfl, fun hne => absurd rfl hne⟩
  | cons frame rest ih =>
    rw [List.forall_mem_cons] at hframes
    obtain ⟨hframe, hrest⟩ := hframes
    obtain ⟨t, ht, hev, hp⟩ :
        ∃ t, ingest frame s = .next t ∧ t.out.events = [.frameReady frame] ∧ t.phase = rearmPhase s.cfg := by
      rcases hstart with hp | hp
      · exact ingest_validFrame_of_rearmed hs hp hframe
      · exact ingest_validFrame_of_seeking hs hp hframe
    obtain ⟨hcfg, -⟩ := ingest_frame ht
    obtain ⟨u, hu, huev, hup⟩ :=
      ih (ingest_keeps_sound hs ht) (State.frameStart_of_rearmPhase (hcfg ▸ hp)) (hcfg ▸ hrest)
    refine ⟨_, ingest_append_of_next ht hu, by simp [hev, huev], fun _ => ?_⟩
    cases rest with
    | nil =>
      cases hu
      exact hp
    | cons g gs => exact (hup (List.cons_ne_nil g gs)).trans (congrArg rearmPhase hcfg)

end

theorem length_flatten_validFrames {c : Cfg} {frames : List (List Byte)}
    (hframes : ∀ g, g ∈ frames → ValidFrame c g) : frames.flatten.length = frames.length * c.n := by
  have hlen : frames.map List.length = List.replicate frames.length c.n :=
    List.map_eq_replicate_iff.mpr fun g hg => (hframes g hg).1
  rw [List.length_flatten, hlen, List.sum_replicate, smul_eq_mul]

/-- Settles O34: the frames are emitted (`ingest_validFrames`), and they take all the bytes of the stream, so that none
is left for a diagnostic (`ingest_outputs_le`). -/
theorem backToBackFrames : Obligations.BackToBackFrames := by
  intro s frames hs hp hframes
  have hstart : s.FrameStart := .inr hp
  obtain ⟨t, ht, hev, hphase⟩ := ingest_validFrames hs hstart hframes
  refine ⟨t, exec_chunk_of_ingest hs ht, hev, List.eq_nil_of_length_eq_zero ?_, hphase⟩
  obtain ⟨hcfg, -⟩ := ingest_frame ht
  have hn : t.n = s.n := congrArg Cfg.n hcfg
  have hle := ingest_outputs_le ht
  have hmissing := State.missing_le_of_sound (ingest_keeps_sound hs ht)
  have hbytes : frames.flatten.length = frames.length * s.n := length_flatten_validFrames hframes
  rw [hev, List.length_map, hbytes, hstart.missing_eq] at hle
  omega

end Sys2Proof.Machine

/-! PROOFS. The decoder's fields and the bits of the ports (R53, R55, R85, R87, R89). -/

namespace Sys2Proof.Machine

/-! ### The fields of a frame (R85, R87, R89) -/

theorem toNat_append_bytes (b0 b1 b2 b3 : Byte) :
    (b3 ++ b2 ++ b1 ++ b0 : BitVec 32).toNat =
      b0.toNat + b1.toNat * 2 ^ 8 + b2.toNat * 2 ^ 16 + b3.toNat * 2 ^ 24 := by
  have happend {w : Nat} (x : BitVec w) (b : Byte) : (x ++ b).toNat = x.toNat * 2 ^ 8 + b.toNat := by
    rw [BitVec.toNat_append, ← Nat.shiftLeft_add_eq_or_of_lt b.isLt, Nat.shiftLeft_eq]
  rw [happend, happend, happend]
  omega

/-- A raw value is the two's complement reading (GK2) of the four bytes, the first one lowest. -/
theorem rawField_eq_toInt {frame : List Byte} {offset : Nat} {b0 b1 b2 b3 : Byte} (h0 : frame[offset]? = some b0)
    (h1 : frame[offset + 1]? = some b1) (h2 : frame[offset + 2]? = some b2) (h3 : frame[offset + 3]? = some b3) :
    rawField frame offset = (b3 ++ b2 ++ b1 ++ b0 : BitVec 32).toInt := by
  have hbyte {i : Nat} {b : Byte} (h : frame[i]? = some b) : frameByte frame i = b := by
    rw [frameByte, List.getD_eq_getElem?_getD, h, Option.getD_some]
  have hle : le (frameByte frame) offset 4 = (b3 ++ b2 ++ b1 ++ b0 : BitVec 32).toNat := by
    rw [le_four, hbyte h0, hbyte h1, hbyte h2, hbyte h3, toNat_append_bytes]
  rw [rawField, s32, hle, BitVec.ofNat_toNat, BitVec.setWidth_eq]

/-- Settles O42: when every entry fits the decoder answers the fields (`decodeFrame_eq_ok_of_fits`), and an entry that
fits has its four bytes in the frame. -/
theorem decodeFits : Obligations.DecodeFits := by
  intro s frame ha hfits
  have hok := decodeFrame_eq_ok_of_fits (layout := s.cfg.layout) (frame := frame) fun f hf => by
    rw [Cfg.width_of_admitted ha hf]
    exact hfits f hf
  refine ⟨s.cfg.layout.map (fieldValue frame), ?_, List.length_map _, fun k f hk => ?_⟩
  · rw [exec_decode_of_admitted ha, hok]
    rfl
  · have hf : f ∈ s.cfg.layout := List.mem_of_getElem? hk
    obtain ⟨-, hentries⟩ := Cfg.admitted_iff.mp ha
    obtain ⟨-, hoffset, -⟩ := hentries f hf
    have hfit := hfits f hf
    have hlt : f.offset.toNat + 3 < frame.length := by omega
    have h0 := List.getElem?_eq_getElem (show f.offset.toNat < frame.length by omega)
    have h1 := List.getElem?_eq_getElem (show f.offset.toNat + 1 < frame.length by omega)
    have h2 := List.getElem?_eq_getElem (show f.offset.toNat + 2 < frame.length by omega)
    have h3 := List.getElem?_eq_getElem hlt
    refine ⟨_, _, _, _, h0, h1, h2, h3, ?_⟩
    rw [List.getElem?_map, hk, Option.map_some, fieldValue, rawField_eq_toInt h0 h1 h2 h3]

/-! ### The event port (R53) -/

theorem packFrame_lt (frame : List Byte) : packFrame frame < 2 ^ (8 * frame.length) := by
  induction frame with
  | nil => exact Nat.one_pos
  | cons b rest ih =>
    have hb := b.isLt
    rw [packFrame, List.length_cons, Nat.mul_succ, pow_add]
    omega

/-- Byte `j` of a frame stands in the bits from `8 j` on. -/
theorem packFrame_div_mod {frame : List Byte} {j : Nat} {b : Byte} (h : frame[j]? = some b) :
    packFrame frame / 2 ^ (8 * j) % 2 ^ 8 = b.toNat := by
  induction frame generalizing j with
  | nil => exact nomatch h
  | cons c rest ih =>
    have hc := c.isLt
    cases j with
    | zero =>
      obtain rfl : c = b := Option.some.inj h
      rw [packFrame, Nat.mul_zero, pow_zero, Nat.div_one]
      omega
    | succ j =>
      have hhigh : packFrame (c :: rest) / 2 ^ 8 = packFrame rest := by
        rw [packFrame]
        omega
      rw [Nat.mul_succ, Nat.add_comm, pow_add, ← Nat.div_div_eq_div_mul, hhigh]
      exact ih h

/-- Settles O52: the frame's wires carry `packFrame`, and the other fields are read off the definition. -/
theorem eventPortBits : Obligations.EventPortBits :=
  ⟨fun frame => ⟨rfl, rfl, rfl, packFrame_lt frame, fun _ _ => packFrame_div_mod⟩, rfl, rfl⟩

/-! ### The decoder port (R55) -/

theorem decoderEntryPort_raw (f : FieldValue) : (decoderEntryPort f).raw = BitVec.ofInt 32 f.raw := by
  rw [decoderEntryPort]
  split <;> rfl

/-- The 32 wires of a raw value carry it whole, since it was read from 32 bits. -/
theorem toInt_decoderEntryPort_fieldValue (frame : List Byte) (f : LayoutEntry) :
    (decoderEntryPort (fieldValue frame f)).raw.toInt = (fieldValue frame f).raw := by
  rw [decoderEntryPort_raw]
  exact congrArg BitVec.toInt BitVec.ofInt_toInt

theorem decoderEntryPort_of_val_none {f : FieldValue} (h : f.val = none) :
    (decoderEntryPort f).hasVal = 0 ∧ (decoderEntryPort f).val = 0 := by
  rw [decoderEntryPort, h]
  exact ⟨rfl, rfl⟩

theorem decoderEntryPort_of_val_some {f : FieldValue} {x : Binary64} (h : f.val = some x) :
    (decoderEntryPort f).hasVal = 1 ∧ (decoderEntryPort f).val = x := by
  rw [decoderEntryPort, h]
  exact ⟨rfl, rfl⟩

/-- The decoder answers the fields of all entries or none. -/
theorem eq_map_fieldValue_of_decodeFrame_eq_ok {layout : List LayoutEntry} {frame : List Byte}
    {fields : List FieldValue} (h : decodeFrame layout frame = .ok fields) :
    fields = layout.map (fieldValue frame) := by
  unfold decodeFrame at h
  split at h
  case h_1 => exact nomatch h
  case h_2 => exact (DecodeResult.ok.inj h).symm

/-- Settles O54: the port is that of the decoder's result: zeros on an error, and otherwise one entry for each field. -/
theorem decoderPortBits : Obligations.DecoderPortBits := by
  intro s t frame h
  obtain ⟨-, rfl⟩ := execDecode_next h
  refine ⟨_, rfl, ?_⟩
  cases hdec : decodeFrame s.cfg.layout frame with
  | decodeError k =>
    exact ⟨List.length_replicate, fun _ _ => ⟨rfl, fun e he => List.eq_of_mem_replicate he⟩, fun _ hf => nomatch hf⟩
  | ok fields =>
    obtain rfl := eq_map_fieldValue_of_decodeFrame_eq_ok hdec
    refine ⟨(List.length_map _).trans (List.length_map _), (fun _ hk => nomatch hk), fun fields hf => ⟨rfl, ?_⟩⟩
    obtain rfl := DecodeResult.ok.inj (Option.some.inj hf)
    intro k f hk
    obtain ⟨entry, -, rfl⟩ := List.mem_map.mp (List.mem_of_getElem? hk)
    refine ⟨decoderEntryPort (fieldValue frame entry), ?_, toInt_decoderEntryPort_fieldValue frame entry,
      decoderEntryPort_of_val_none, fun x => decoderEntryPort_of_val_some⟩
    rw [decoderPort, List.getElem?_map, hk, Option.map_some]

end Sys2Proof.Machine

/-! PROOFS. The scaled values (R89, GK1): the rounding to an integer, the signs and zeros of a quotient, and that a
scaled value is the nearest one. -/

namespace Sys2Proof.Machine

/-! ### Rounding to an integer -/

/-- Settles O47 (`roundHalfEven` names the model's function): the remainder is compared with half the divisor, and a tie
goes to the even one of two integers. -/
theorem roundHalfEven_nearest : Obligations.RoundHalfEven := by
  intro num den hden
  have hdiv : num / den * den + num % den = num := Nat.div_add_mod' num den
  have hrem := Nat.mod_lt num hden
  unfold roundHalfEven
  dsimp only
  generalize num / den = q at hdiv ⊢
  generalize num % den = r at hdiv hrem ⊢
  split_ifs with hbelow habove heven
  · omega
  · rw [Nat.succ_mul q den]
    omega
  · omega
  · rw [Nat.succ_mul q den]
    omega

/-- `r` is the integer nearest to `x`, and the even one when `x` is halfway between two. -/
def NearestEven (x : ℚ) (r : ℕ) : Prop := |x - r| ≤ 1 / 2 ∧ (|x - r| = 1 / 2 → r % 2 = 0)

theorem nearestEven_roundHalfEven (num : ℕ) {den : ℕ} (hden : 0 < den) :
    NearestEven (num / den) (roundHalfEven num den) := by
  obtain ⟨hlo, hhi, htie⟩ := roundHalfEven_nearest num den hden
  have hd : (0 : ℚ) < den := Nat.cast_pos.mpr hden
  have hlo' : 2 * ((roundHalfEven num den : ℚ) * den) ≤ 2 * num + den := mod_cast hlo
  have hhi' : (2 : ℚ) * num ≤ 2 * (roundHalfEven num den * den) + den := mod_cast hhi
  have hdist : |(num : ℚ) / den - roundHalfEven num den| = |(num : ℚ) - roundHalfEven num den * den| / den := by
    rw [div_sub' hd.ne', abs_div, abs_of_pos hd, mul_comm (den : ℚ)]
  constructor
  · rw [hdist, div_le_iff₀ hd, abs_le]
    constructor <;> linarith
  · rw [hdist, div_eq_iff hd.ne', abs_eq (by linarith)]
    rintro (h | h)
    · refine htie (.inr ?_)
      have : (2 : ℚ) * num = 2 * (roundHalfEven num den * den) + den := by linarith
      exact_mod_cast this
    · refine htie (.inl ?_)
      have : 2 * ((roundHalfEven num den : ℚ) * den) = 2 * num + den := by linarith
      exact_mod_cast this

/-- No integer is nearer, and another one is as near only on a tie, when the nearest is even. -/
theorem NearestEven.le_of_nat {x : ℚ} {r : ℕ} (h : NearestEven x r) (j : ℕ) :
    |x - r| ≤ |x - j| ∧ (|x - r| = |x - j| → j = r ∨ r % 2 = 0) := by
  obtain ⟨hhalf, htie⟩ := h
  by_cases hj : j = r
  · subst hj
    exact ⟨le_rfl, fun _ => .inl rfl⟩
  have hone : (1 : ℚ) ≤ |(r : ℚ) - j| := by
    have hz : (1 : ℤ) ≤ |(r : ℤ) - j| := Int.one_le_abs (by omega)
    exact_mod_cast hz
  have htriangle : |(r : ℚ) - j| ≤ |x - r| + |x - j| := by
    rw [abs_sub_comm x r]
    exact abs_sub_le _ x _
  exact ⟨by linarith, fun heq => .inr (htie (by linarith))⟩

theorem NearestEven.le_of_le {x : ℚ} {r : ℕ} (h : NearestEven x r) {a : ℕ} (ha : (a : ℚ) ≤ x) : a ≤ r := by
  have hlo := (abs_le.mp h.1).2
  have hlt : (a : ℚ) < r + 1 := by linarith
  exact Nat.lt_succ_iff.mp (by exact_mod_cast hlt)

theorem NearestEven.le_of_lt {x : ℚ} {r : ℕ} (h : NearestEven x r) {a : ℕ} (ha : x < a) : r ≤ a := by
  have hhi := (abs_le.mp h.1).1
  have hlt : (r : ℚ) < a + 1 := by linarith
  exact Nat.lt_succ_iff.mp (by exact_mod_cast hlt)

/-! ### Signs and zeros -/

/-- Adding `2 ^ 63` modulo `2 ^ 64` flips the sign bit and nothing else. -/
theorem ofNat_two_pow_add_eq_xor (m : ℕ) :
    BitVec.ofNat 64 (2 ^ 63 + m) = BitVec.ofNat 64 m ^^^ 0x8000000000000000#64 := by
  have hmin : 0x8000000000000000#64 = BitVec.intMin 64 := rfl
  refine BitVec.eq_of_getLsbD_eq fun i hi => ?_
  rw [hmin, BitVec.getLsbD_xor, BitVec.getLsbD_intMin, BitVec.getLsbD_ofNat, BitVec.getLsbD_ofNat]
  obtain hlt | rfl : i < 63 ∨ i = 63 := by omega
  · rw [Nat.testBit_two_pow_add_gt hlt, decide_eq_false (p := i + 1 = 64) (by omega), Bool.xor_false]
  · rw [Nat.testBit_two_pow_add_eq]
    simp

theorem div64_of_negative {raw : ℤ} {s : Binary64} (h : (decide (raw < 0)).xor (binary64Sign s) = true) :
    div64 raw s = BitVec.ofNat 64 (2 ^ 63 + divMagnitude raw.natAbs s) := by
  rw [div64, h]
  rfl

theorem div64_of_nonnegative {raw : ℤ} {s : Binary64} (h : (decide (raw < 0)).xor (binary64Sign s) = false) :
    div64 raw s = BitVec.ofNat 64 (divMagnitude raw.natAbs s) := by
  rw [div64, h]
  exact congrArg (BitVec.ofNat 64) (Nat.zero_add _)

/-- The magnitude does not see the sign of the raw value, which decides the sign bit with that of the scale. -/
theorem div64_neg {raw : ℤ} (s : Binary64) (h : raw ≠ 0) : div64 (-raw) s = div64 raw s ^^^ 0x8000000000000000#64 := by
  have hflip : (decide (-raw < 0)).xor (binary64Sign s) = !(decide (raw < 0)).xor (binary64Sign s) := by
    have hneg : decide (-raw < 0) = !decide (raw < 0) := by
      rw [← decide_not, decide_eq_decide]
      omega
    rw [hneg, Bool.not_xor]
  cases hsign : (decide (raw < 0)).xor (binary64Sign s) with
  | false =>
    rw [hsign] at hflip
    rw [div64_of_negative hflip, div64_of_nonnegative hsign, Int.natAbs_neg, ofNat_two_pow_add_eq_xor]
  | true =>
    rw [hsign] at hflip
    rw [div64_of_nonnegative hflip, div64_of_negative hsign, Int.natAbs_neg, ofNat_two_pow_add_eq_xor,
      BitVec.xor_assoc, BitVec.xor_self, BitVec.xor_zero]

theorem divMagnitude_zero (s : Binary64) : divMagnitude 0 s = 0 := by
  rw [divMagnitude]
  split <;> simp [roundRatio]

theorem div64_zero (s : Binary64) : div64 0 s = if binary64Sign s then 0x8000000000000000#64 else 0#64 := by
  rw [div64, Int.natAbs_zero, divMagnitude_zero]
  cases binary64Sign s <;> rfl

/-- Settles O48: negating flips the sign bit (`div64_neg`), the magnitude of `0 / s` is 0, and the worked example is
computed. -/
theorem div64Signs : Obligations.Div64Signs :=
  ⟨fun _ s _ hraw => div64_neg s hraw, fun s _ => div64_zero s, by decide⟩

/-! ### The leading bit of a quotient -/

theorem two_zpow_le_div_iff {num den : ℕ} (hden : 0 < den) (k : ℤ) :
    (if 0 ≤ k then decide (den * 2 ^ k.toNat ≤ num) else decide (den ≤ num * 2 ^ (-k).toNat)) = true ↔
      (2 : ℚ) ^ k ≤ num / den := by
  have hd : (0 : ℚ) < den := Nat.cast_pos.mpr hden
  rw [le_div_iff₀ hd]
  split_ifs with hk
  · obtain ⟨n, rfl⟩ := Int.eq_ofNat_of_zero_le hk
    rw [decide_eq_true_iff, Int.toNat_natCast, zpow_natCast, mul_comm]
    exact_mod_cast Iff.rfl
  · obtain ⟨n, rfl⟩ : ∃ n : ℕ, k = -n := ⟨(-k).toNat, by omega⟩
    rw [decide_eq_true_iff, neg_neg, Int.toNat_natCast, zpow_neg, zpow_natCast, inv_mul_le_iff₀ (by positivity),
      mul_comm (2 ^ n : ℚ)]
    exact_mod_cast Iff.rfl

/-- The difference of the leading bits of numerator and denominator is right or one too high. -/
theorem floorLog2Ratio_eq (num : ℕ) {den : ℕ} (hden : 0 < den) :
    floorLog2Ratio num den =
      if (2 : ℚ) ^ ((num.log2 : ℤ) - den.log2) ≤ num / den then (num.log2 : ℤ) - den.log2
      else (num.log2 : ℤ) - den.log2 - 1 :=
  if_congr (two_zpow_le_div_iff hden _) rfl rfl

theorem floorLog2Ratio_spec {num den : ℕ} (hnum : 0 < num) (hden : 0 < den) :
    (2 : ℚ) ^ floorLog2Ratio num den ≤ num / den ∧ (num / den : ℚ) < 2 ^ (floorLog2Ratio num den + 1) := by
  have hd : (0 : ℚ) < den := Nat.cast_pos.mpr hden
  have hnumlo : (2 : ℚ) ^ num.log2 ≤ num := mod_cast Nat.log2_self_le hnum.ne'
  have hnumhi : (num : ℚ) < 2 ^ (num.log2 + 1) := mod_cast Nat.lt_log2_self
  have hdenlo : (2 : ℚ) ^ den.log2 ≤ den := mod_cast Nat.log2_self_le hden.ne'
  have hdenhi : (den : ℚ) < 2 ^ (den.log2 + 1) := mod_cast Nat.lt_log2_self
  have hhi : (num / den : ℚ) < 2 ^ ((num.log2 : ℤ) - den.log2 + 1) := by
    rw [div_lt_iff₀ hd, sub_add_eq_add_sub, zpow_sub₀ two_ne_zero, div_mul_eq_mul_div, lt_div_iff₀ (by positivity)]
    exact mul_lt_mul_of_lt_of_le_of_nonneg_of_pos (mod_cast hnumhi) (mod_cast hdenlo) (by positivity) (by positivity)
  have hlo : (2 : ℚ) ^ ((num.log2 : ℤ) - den.log2 - 1) ≤ num / den := by
    rw [le_div_iff₀ hd, sub_sub, zpow_sub₀ two_ne_zero, div_mul_eq_mul_div, div_le_iff₀ (by positivity)]
    exact mul_le_mul (mod_cast hnumlo) (mod_cast hdenhi.le) (by positivity) (by positivity)
  rw [floorLog2Ratio_eq num hden]
  split_ifs with hfits
  · exact ⟨hfits, hhi⟩
  · rw [sub_add_cancel]
    exact ⟨hlo, not_le.mp hfits⟩

/-! ### The magnitudes of the format -/

/-- The value of a last place that stands `k` places above the least one of the format: `2 ^ (k - 1074)`. -/
def ulp (k : ℕ) : ℚ := 2 ^ k / 2 ^ 1074

/-- The value of a magnitude, the bits of a pattern below the sign (GK1). -/
def magnitudeValue (m : ℕ) : ℚ :=
  ((if m / 2 ^ 52 = 0 then m % 2 ^ 52 else 2 ^ 52 + m % 2 ^ 52 : ℕ) : ℚ) * ulp (m / 2 ^ 52 - 1)

theorem ulp_pos (k : ℕ) : 0 < ulp k := by
  unfold ulp
  positivity

theorem ulp_add (e k : ℕ) : ulp (e + k) = 2 ^ e * ulp k := by
  rw [ulp, ulp, pow_add, mul_div_assoc]

theorem magnitudeValue_zero : magnitudeValue 0 = 0 := by
  simp [magnitudeValue]

theorem magnitudeValue_nonneg (m : ℕ) : 0 ≤ magnitudeValue m :=
  mul_nonneg (Nat.cast_nonneg _) (ulp_pos _).le

/-- A significand stands on its last place, also when it carries into the next exponent. -/
theorem magnitudeValue_mul_add {k sig : ℕ} (hlo : k ≠ 0 → 2 ^ 52 ≤ sig) (hhi : sig ≤ 2 ^ 53) :
    magnitudeValue (k * 2 ^ 52 + sig) = sig * ulp k := by
  obtain hcarry | hlt := hhi.eq_or_lt
  · subst hcarry
    have hexp : (k * 2 ^ 52 + 2 ^ 53) / 2 ^ 52 = k + 2 := by omega
    have hfrac : (k * 2 ^ 52 + 2 ^ 53) % 2 ^ 52 = 0 := by omega
    rw [magnitudeValue, hexp, hfrac, if_neg (by omega), show k + 2 - 1 = 1 + k by omega, ulp_add]
    push_cast
    ring
  by_cases hnormal : 2 ^ 52 ≤ sig
  · have hexp : (k * 2 ^ 52 + sig) / 2 ^ 52 = k + 1 := by omega
    have hfrac : 2 ^ 52 + (k * 2 ^ 52 + sig) % 2 ^ 52 = sig := by omega
    rw [magnitudeValue, hexp, if_neg (by omega), hfrac, Nat.add_sub_cancel]
  · have hk : k = 0 := by
      by_contra hk
      exact hnormal (hlo hk)
    have hexp : (k * 2 ^ 52 + sig) / 2 ^ 52 = 0 := by omega
    have hfrac : (k * 2 ^ 52 + sig) % 2 ^ 52 = sig := by omega
    rw [magnitudeValue, hexp, hfrac, if_pos rfl, hk]

/-- Every magnitude is a multiple of a given last place or lies below all normal ones that have it. -/
theorem magnitudeValue_multiple_or_lt (m k : ℕ) :
    (∃ j : ℕ, magnitudeValue m = j * ulp k) ∨ k ≠ 0 ∧ magnitudeValue m < 2 ^ 52 * ulp k := by
  unfold magnitudeValue
  have hsig : (if m / 2 ^ 52 = 0 then m % 2 ^ 52 else 2 ^ 52 + m % 2 ^ 52) < 2 ^ 53 := by
    split <;> omega
  generalize (if m / 2 ^ 52 = 0 then m % 2 ^ 52 else 2 ^ 52 + m % 2 ^ 52) = sig at hsig ⊢
  generalize m / 2 ^ 52 - 1 = e
  obtain hle | hlt := le_or_gt k e
  · obtain ⟨d, rfl⟩ := Nat.exists_eq_add_of_le' hle
    refine .inl ⟨sig * 2 ^ d, ?_⟩
    rw [ulp_add, Nat.cast_mul, Nat.cast_pow, Nat.cast_ofNat, mul_assoc]
  · obtain ⟨d, rfl⟩ := Nat.exists_eq_add_of_lt hlt
    refine .inr ⟨by omega, ?_⟩
    have hsigq : (sig : ℚ) < 2 ^ 53 := mod_cast hsig
    have hpow : (1 : ℚ) ≤ 2 ^ d := one_le_pow₀ one_le_two
    have hu := ulp_pos e
    have hstep : (2 : ℚ) ^ 52 * ulp (e + d + 1) = 2 ^ 53 * (2 ^ d * ulp e) := by
      rw [show e + d + 1 = (d + 1) + e by omega, ulp_add]
      ring
    rw [hstep]
    calc (sig : ℚ) * ulp e < 2 ^ 53 * ulp e := mul_lt_mul_of_pos_right hsigq hu
      _ ≤ 2 ^ 53 * (2 ^ d * ulp e) := by
        refine mul_le_mul_of_nonneg_left ?_ (by positivity)
        exact le_mul_of_one_le_left hu.le hpow

/-! ### The rounded quotient is the nearest magnitude -/

/-- The rounding of a positive quotient: a significand on the last place that the leading bit of the quotient gives. -/
theorem exists_roundRatio_eq {num den : ℕ} (hnum : 0 < num) (hden : 0 < den) :
    ∃ k sig : ℕ, roundRatio num den = min (k * 2 ^ 52 + sig) binary64Inf ∧ NearestEven (num / den / ulp k) sig ∧
      (k ≠ 0 → 2 ^ 52 ≤ (num / den / ulp k : ℚ)) ∧ (num / den / ulp k : ℚ) < 2 ^ 53 := by
  obtain ⟨hlo, hhi⟩ := floorLog2Ratio_spec hnum hden
  obtain ⟨u, hu⟩ : ∃ u, u = max (floorLog2Ratio num den - 52) (-1074) := ⟨_, rfl⟩
  have hk : ((u + 1074).toNat : ℤ) = u + 1074 := by omega
  have hulp : ulp (u + 1074).toNat = 2 ^ u := by
    have hnat : (2 : ℚ) ^ (u + 1074).toNat = 2 ^ (u + 1074) := by rw [← zpow_natCast, hk]
    have hbias : (2 : ℚ) ^ (1074 : ℤ) = 2 ^ (1074 : ℕ) := zpow_natCast 2 1074
    rw [ulp, hnat, zpow_add₀ two_ne_zero, hbias, mul_div_cancel_right₀ _ (by positivity)]
  have hpos : (0 : ℚ) < 2 ^ u := by positivity
  refine ⟨(u + 1074).toNat,
    if 0 ≤ u then roundHalfEven num (den * 2 ^ u.toNat) else roundHalfEven (num * 2 ^ (-u).toNat) den, ?_, ?_, ?_, ?_⟩
  · rw [roundRatio, if_neg hnum.ne', hu]
  · rw [hulp]
    split_ifs with hsign
    · have hcast : (num / den / 2 ^ u : ℚ) = num / (den * 2 ^ u.toNat : ℕ) := by
        rw [Nat.cast_mul, Nat.cast_pow, Nat.cast_ofNat, ← zpow_natCast, Int.toNat_of_nonneg hsign, div_div]
      rw [hcast]
      exact nearestEven_roundHalfEven num (Nat.mul_pos hden (Nat.two_pow_pos _))
    · have hcast : (num / den / 2 ^ u : ℚ) = (num * 2 ^ (-u).toNat : ℕ) / den := by
        rw [Nat.cast_mul, Nat.cast_pow, Nat.cast_ofNat, ← zpow_natCast, Int.toNat_of_nonneg (by omega), zpow_neg,
          div_right_comm, div_eq_mul_inv (num : ℚ) (2 ^ u)]
      rw [hcast]
      exact nearestEven_roundHalfEven _ hden
  · intro hne
    have hlead : floorLog2Ratio num den = 52 + u := by omega
    rw [hulp, le_div_iff₀ hpos, ← zpow_natCast, ← zpow_add₀ two_ne_zero]
    exact hlead ▸ hlo
  · rw [hulp, div_lt_iff₀ hpos, ← zpow_natCast, ← zpow_add₀ two_ne_zero]
    refine hhi.trans_le (zpow_le_zpow_right₀ one_le_two ?_)
    push_cast
    omega

/-- A quotient below the overflow threshold, half a last place below `2 ^ 1024`, does not round up to infinity. -/
theorem mul_add_lt_binary64Inf {x : ℚ} {k sig : ℕ} (hx : x * ulp k < 2 ^ 1024 - 2 ^ 970) (hnear : NearestEven x sig)
    (hnormal : k ≠ 0 → 2 ^ 52 ≤ x) (hhi : sig ≤ 2 ^ 53) : k * 2 ^ 52 + sig < binary64Inf := by
  by_contra hge
  have hinf : binary64Inf = 2047 * 2 ^ 52 := rfl
  obtain ⟨d, rfl⟩ : ∃ d, k = d + 2045 := ⟨k - 2045, by omega⟩
  have hthreshold : (2 : ℚ) ^ 1024 - 2 ^ 970 = (2 ^ 53 - 1 / 2) * ulp 2045 := by
    have h2045 : (2 : ℚ) ^ 2045 = 2 ^ 1074 * 2 ^ 971 := by rw [← pow_add]
    have h1024 : (2 : ℚ) ^ 1024 = 2 ^ 53 * 2 ^ 971 := by rw [← pow_add]
    rw [ulp, h2045, mul_div_cancel_left₀ _ (by positivity), h1024, pow_succ 2 970]
    generalize (2 : ℚ) ^ 970 = p
    ring
  rw [hthreshold, ulp_add, ← mul_assoc] at hx
  have hxlt : x * 2 ^ d < 2 ^ 53 - 1 / 2 := lt_of_mul_lt_mul_right hx (ulp_pos 2045).le
  have hx52 := hnormal (by omega)
  cases d with
  | zero =>
    have hsig : sig = 2 ^ 53 := by omega
    have hclose := (abs_le.mp hnear.1).1
    rw [hsig] at hclose
    push_cast at hclose
    linarith
  | succ d =>
    have hpow : (2 : ℚ) ≤ 2 ^ (d + 1) := le_self_pow₀ one_le_two (Nat.succ_ne_zero d)
    have hmul : (2 : ℚ) ^ 52 * 2 ≤ x * 2 ^ (d + 1) := mul_le_mul hx52 hpow zero_le_two (by linarith)
    linarith

/-- Of all magnitudes none is nearer to `x` last places than `sig` of them: a multiple of the last place is an integer
against an integer, and any other lies below `2 ^ 52` of them, which is a multiple and not above `x`. -/
theorem NearestEven.le_of_magnitude {x : ℚ} {k sig : ℕ} (h : NearestEven x sig) (hnormal : k ≠ 0 → 2 ^ 52 ≤ x) (m : ℕ) :
    |x * ulp k - sig * ulp k| ≤ |x * ulp k - magnitudeValue m| ∧
      (|x * ulp k - sig * ulp k| = |x * ulp k - magnitudeValue m| → magnitudeValue m = sig * ulp k ∨ sig % 2 = 0) := by
  have hu := ulp_pos k
  have hscale (y : ℚ) : |x * ulp k - y * ulp k| = |x - y| * ulp k := by
    rw [← sub_mul, abs_mul, abs_of_pos hu]
  rcases magnitudeValue_multiple_or_lt m k with ⟨j, hj⟩ | ⟨hk, hlt⟩
  · obtain ⟨hle, htie⟩ := h.le_of_nat j
    rw [hj, hscale, hscale]
    refine ⟨mul_le_mul_of_nonneg_right hle hu.le, fun heq => ?_⟩
    exact (htie (mul_right_cancel₀ hu.ne' heq)).imp_left fun hjs => by rw [hjs]
  · have hx := hnormal hk
    have hbelow : |x * ulp k - sig * ulp k| < |x * ulp k - magnitudeValue m| := by
      calc |x * ulp k - sig * ulp k| = |x - sig| * ulp k := hscale sig
        _ ≤ |x - (2 ^ 52 : ℕ)| * ulp k := mul_le_mul_of_nonneg_right (h.le_of_nat _).1 hu.le
        _ = x * ulp k - 2 ^ 52 * ulp k := by
          rw [Nat.cast_pow, Nat.cast_ofNat, abs_of_nonneg (sub_nonneg.mpr hx), sub_mul]
        _ < x * ulp k - magnitudeValue m := sub_lt_sub_left hlt _
        _ ≤ |x * ulp k - magnitudeValue m| := le_abs_self _
    exact ⟨hbelow.le, fun heq => absurd heq hbelow.ne⟩

/-- Below the overflow threshold the rounded quotient is finite and the nearest magnitude, with ties to even. -/
theorem roundRatio_nearest {num den : ℕ} (hden : 0 < den) (hrange : (num / den : ℚ) < 2 ^ 1024 - 2 ^ 970) :
    roundRatio num den < binary64Inf ∧ ∀ m : ℕ,
      |(num / den : ℚ) - magnitudeValue (roundRatio num den)| ≤ |(num / den : ℚ) - magnitudeValue m| ∧
      (|(num / den : ℚ) - magnitudeValue (roundRatio num den)| = |(num / den : ℚ) - magnitudeValue m| →
        magnitudeValue m = magnitudeValue (roundRatio num den) ∨ roundRatio num den % 2 = 0) := by
  obtain rfl | hnum := Nat.eq_zero_or_pos num
  · have hround : roundRatio 0 den = 0 := if_pos rfl
    rw [hround, magnitudeValue_zero, Nat.cast_zero, zero_div, sub_zero, abs_zero]
    exact ⟨by decide, fun m => ⟨abs_nonneg _, fun _ => .inr rfl⟩⟩
  obtain ⟨k, sig, hround, hnear, hnormal, hlt⟩ := exists_roundRatio_eq hnum hden
  have hcancel : (num / den : ℚ) = num / den / ulp k * ulp k := (div_mul_cancel₀ _ (ulp_pos k).ne').symm
  have hhi : sig ≤ 2 ^ 53 := hnear.le_of_lt (mod_cast hlt)
  have hlo : k ≠ 0 → 2 ^ 52 ≤ sig := fun hk => hnear.le_of_le (mod_cast hnormal hk)
  have hfinite := mul_add_lt_binary64Inf (hcancel ▸ hrange) hnear hnormal hhi
  rw [min_eq_left hfinite.le] at hround
  have hparity : roundRatio num den % 2 = sig % 2 := by omega
  rw [hparity, hround, magnitudeValue_mul_add hlo hhi, hcancel]
  exact ⟨hfinite, hnear.le_of_magnitude hnormal⟩

/-! ### Patterns, their signs and their magnitudes -/

/-- The factor of a sign bit. -/
def signFactor (negative : Bool) : ℚ := if negative then -1 else 1

/-- A pattern's bits below the sign. -/
def magnitudeBits (x : Binary64) : ℕ := x.toNat % 2 ^ 63

theorem binary64Exponent_eq (x : Binary64) : binary64Exponent x = magnitudeBits x / 2 ^ 52 := by
  have hx := x.isLt
  rw [binary64Exponent, BitVec.extractLsb'_toNat, Nat.shiftRight_eq_div_pow, magnitudeBits]
  omega

theorem binary64Fraction_eq (x : Binary64) : binary64Fraction x = magnitudeBits x % 2 ^ 52 := by
  rw [binary64Fraction, BitVec.extractLsb'_toNat, Nat.shiftRight_zero, magnitudeBits]
  omega

theorem magnitudeValue_magnitudeBits (x : Binary64) :
    magnitudeValue (magnitudeBits x) = binary64Significand x * 2 ^ binary64ScaleExp x / 2 ^ 1074 := by
  rw [magnitudeValue, ulp, binary64Significand, binary64ScaleExp, binary64Exponent_eq, binary64Fraction_eq,
    mul_div_assoc]

theorem binary64Value_eq (x : Binary64) :
    binary64Value x = signFactor (binary64Sign x) * magnitudeValue (magnitudeBits x) := by
  rw [magnitudeValue_magnitudeBits, binary64Value, signFactor, Nat.cast_mul, Nat.cast_pow, Nat.cast_pow,
    Nat.cast_ofNat, mul_div_assoc]

theorem binary64Finite_of_magnitudeBits_lt {x : Binary64} (h : magnitudeBits x < binary64Inf) :
    binary64Finite x = true := by
  have hinf : binary64Inf = 2047 * 2 ^ 52 := rfl
  rw [magnitudeBits] at h
  refine eq_true_of_ne_false fun hbad => ?_
  have hexp := (binary64Finite_eq_false_iff x).mp hbad
  omega

theorem binary64Significand_pos {s : Binary64} (hs : scaleAdmitted (some s) = true) : 0 < binary64Significand s := by
  have hzero : ¬ s.toNat % 2 ^ 63 = 0 := fun hz =>
    Bool.false_ne_true ((scaleAdmitted_eq_false_iff.mpr ⟨s, rfl, .inr hz⟩).symm.trans hs)
  rw [binary64Significand, binary64Exponent_eq, binary64Fraction_eq, magnitudeBits]
  split <;> omega

theorem roundRatio_le (num den : ℕ) : roundRatio num den ≤ binary64Inf := by
  rw [roundRatio]
  split
  · exact Nat.zero_le _
  · exact min_le_right _ _

/-- The magnitude of a quotient is a rounded ratio: that of the raw value's to the scale's. -/
theorem exists_divMagnitude_eq (raw : ℕ) {s : Binary64} (hs : scaleAdmitted (some s) = true) :
    ∃ num den : ℕ, 0 < den ∧ divMagnitude raw s = roundRatio num den ∧
      (num / den : ℚ) = raw / magnitudeValue (magnitudeBits s) := by
  have hsig := binary64Significand_pos hs
  have hsigq : (binary64Significand s : ℚ) ≠ 0 := Nat.cast_ne_zero.mpr hsig.ne'
  rw [magnitudeValue_magnitudeBits, divMagnitude]
  generalize binary64Significand s = sig at hsig hsigq ⊢
  generalize binary64ScaleExp s = e
  split_ifs with he
  · refine ⟨_, _, hsig, rfl, ?_⟩
    have hpow : (2 : ℚ) ^ 1074 = 2 ^ (1074 - e) * 2 ^ e := by rw [← pow_add, Nat.sub_add_cancel he]
    rw [Nat.cast_mul, Nat.cast_pow, Nat.cast_ofNat, hpow]
    field_simp
  · refine ⟨_, _, Nat.mul_pos hsig (Nat.two_pow_pos _), rfl, ?_⟩
    have hpow : (2 : ℚ) ^ e = 2 ^ (e - 1074) * 2 ^ 1074 := by rw [← pow_add, Nat.sub_add_cancel (Nat.le_of_not_le he)]
    have hbias : (2 : ℚ) ^ 1074 ≠ 0 := pow_ne_zero _ two_ne_zero
    rw [Nat.cast_mul, Nat.cast_pow, Nat.cast_ofNat, hpow]
    generalize (2 : ℚ) ^ 1074 = p at hbias ⊢
    field_simp

/-! ### The scaled value -/

/-- The sign of a quotient: the product of the signs. -/
def quotientNegative (raw : ℤ) (s : Binary64) : Bool := (decide (raw < 0)).xor (binary64Sign s)

theorem divMagnitude_lt (raw : ℕ) (s : Binary64) : divMagnitude raw s < 2 ^ 63 := by
  have hinf : binary64Inf < 2 ^ 63 := by decide
  rw [divMagnitude]
  split <;> exact (roundRatio_le _ _).trans_lt hinf

theorem toNat_div64 (raw : ℤ) (s : Binary64) :
    (div64 raw s).toNat = (if quotientNegative raw s then 2 ^ 63 else 0) + divMagnitude raw.natAbs s := by
  have hlt := divMagnitude_lt raw.natAbs s
  have hdiv : div64 raw s =
      BitVec.ofNat 64 ((if quotientNegative raw s then 2 ^ 63 else 0) + divMagnitude raw.natAbs s) := rfl
  rw [hdiv, BitVec.toNat_ofNat, Nat.mod_eq_of_lt]
  split <;> omega

theorem magnitudeBits_div64 (raw : ℤ) (s : Binary64) : magnitudeBits (div64 raw s) = divMagnitude raw.natAbs s := by
  have hlt := divMagnitude_lt raw.natAbs s
  rw [magnitudeBits, toNat_div64]
  split <;> omega

theorem binary64Sign_div64 (raw : ℤ) (s : Binary64) : binary64Sign (div64 raw s) = quotientNegative raw s := by
  have hlt := divMagnitude_lt raw.natAbs s
  rw [binary64Sign, BitVec.getLsbD, Nat.testBit_eq_decide_div_mod_eq, toNat_div64]
  cases quotientNegative raw s with
  | false => exact decide_eq_false (by simp only [Bool.false_eq_true, if_false]; omega)
  | true => exact decide_eq_true (by simp only [if_true]; omega)

theorem getLsbD_zero_div64 (raw : ℤ) (s : Binary64) :
    (div64 raw s).getLsbD 0 = decide (divMagnitude raw.natAbs s % 2 = 1) := by
  rw [BitVec.getLsbD, Nat.testBit_zero, toNat_div64, decide_eq_decide]
  split <;> omega

theorem signFactor_xor (a b : Bool) : signFactor (a.xor b) = signFactor a / signFactor b := by
  cases a <;> cases b <;> norm_num [signFactor]

theorem intCast_eq_signFactor_mul (raw : ℤ) : (raw : ℚ) = signFactor (decide (raw < 0)) * raw.natAbs := by
  rcases lt_or_ge raw 0 with hneg | hpos
  · rw [decide_eq_true hneg, Nat.cast_natAbs, abs_of_neg hneg]
    simp [signFactor]
  · rw [decide_eq_false (not_lt.mpr hpos), Nat.cast_natAbs, abs_of_nonneg hpos]
    simp [signFactor]

/-- The exact quotient by its sign and its magnitude. -/
theorem intCast_div_binary64Value (raw : ℤ) (s : Binary64) :
    (raw : ℚ) / binary64Value s =
      signFactor (quotientNegative raw s) * (raw.natAbs / magnitudeValue (magnitudeBits s)) := by
  rw [binary64Value_eq, quotientNegative, signFactor_xor, ← mul_div_mul_comm, ← intCast_eq_signFactor_mul]

theorem abs_signFactor_mul_sub (a b : Bool) (x y : ℚ) :
    |signFactor a * x - signFactor b * y| = if a = b then |x - y| else |x + y| := by
  have hswap : |-x - y| = |x + y| := by rw [← neg_add', abs_neg]
  have hflip : |-x + y| = |x - y| := by rw [neg_add_eq_sub, abs_sub_comm]
  cases a <;> cases b <;> simp [signFactor, hswap, hflip]

/-- A value of the other sign is no nearer than zero is. -/
theorem le_of_opposite_sign {q v : ℚ} {r : ℕ} (hq : 0 ≤ q) (hv : 0 ≤ v)
    (hnear : ∀ m : ℕ, |q - magnitudeValue r| ≤ |q - magnitudeValue m| ∧
      (|q - magnitudeValue r| = |q - magnitudeValue m| → magnitudeValue m = magnitudeValue r ∨ r % 2 = 0)) :
    |q - magnitudeValue r| ≤ |q + v| ∧
      (|q - magnitudeValue r| = |q + v| → v = 0 ∧ magnitudeValue r = 0 ∨ r % 2 = 0) := by
  obtain ⟨hle, htie⟩ := hnear 0
  rw [magnitudeValue_zero, sub_zero, abs_of_nonneg hq] at hle htie
  rw [abs_of_nonneg (add_nonneg hq hv)]
  refine ⟨by linarith, fun heq => ?_⟩
  exact (htie (by linarith)).imp_left fun hzero => ⟨by linarith, hzero.symm⟩

/-- Settles O49: the magnitude of the quotient is rounded to the nearest one (`roundRatio_nearest`); a value of the
other sign is at least as far as zero. -/
theorem div64Nearest : Obligations.Div64Nearest := by
  intro raw s hs _ _ hrange
  obtain ⟨num, den, hden, hdiv, hquot⟩ := exists_divMagnitude_eq raw.natAbs hs
  have hq : (0 : ℚ) ≤ num / den := div_nonneg (Nat.cast_nonneg _) (Nat.cast_nonneg _)
  have habs : |(raw : ℚ) / binary64Value s| = num / den := by
    have hunit : |signFactor (quotientNegative raw s)| = 1 := by cases quotientNegative raw s <;> simp [signFactor]
    rw [intCast_div_binary64Value, ← hquot, abs_mul, hunit, one_mul, abs_of_nonneg hq]
  rw [habs] at hrange
  obtain ⟨hfinite, hnear⟩ := roundRatio_nearest hden hrange
  rw [← hdiv] at hfinite hnear
  refine ⟨binary64Finite_of_magnitudeBits_lt (by rwa [magnitudeBits_div64]), fun z _ => ?_⟩
  have heven (h : divMagnitude raw.natAbs s % 2 = 0) : (div64 raw s).getLsbD 0 = false := by
    rw [getLsbD_zero_div64, h]
    rfl
  rw [intCast_div_binary64Value, ← hquot, binary64Value_eq z, binary64Value_eq (div64 raw s), magnitudeBits_div64,
    binary64Sign_div64, abs_signFactor_mul_sub, abs_signFactor_mul_sub, if_pos rfl]
  split_ifs with hsign
  · obtain ⟨hle, htie⟩ := hnear (magnitudeBits z)
    refine ⟨hle, fun heq hne => heven ?_⟩
    exact (htie heq).resolve_left fun hsame => hne (by rw [hsame, hsign])
  · obtain ⟨hle, htie⟩ := le_of_opposite_sign hq (magnitudeValue_nonneg (magnitudeBits z)) hnear
    refine ⟨hle, fun heq hne => heven ?_⟩
    exact (htie heq).resolve_left fun ⟨hz, hr⟩ => hne (by rw [hz, hr, mul_zero, mul_zero])

end Sys2Proof.Machine
